-- ==== Sys2Proof/Word.lean ====
section
/-!
DEFINITION. The bit-vector types of ECO32e: what the spec treats as bits, at the widths it gives
(spec/00_scope.md R6, R10). Bit 0 is the least significant bit (R9).
-/

namespace Sys2Proof

/-- A register value, an address, the pc, an instruction word: 32 bits (R6, R10, R24, R70). -/
abbrev Word := BitVec 32

/-- A halfword, and the 16-bit immediate field of formats RRS, RRH, RHH and RRB (R13, R80, R81). -/
abbrev Half := BitVec 16

/-- A byte of memory, and a keyboard character (R30, R32). -/
abbrev Byte := BitVec 8

/-- A register field of an instruction: any number from 0 to 31 (R20). -/
abbrev RegNum := BitVec 5

/-- The 26-bit offset field of format J (R77). -/
abbrev JumpField := BitVec 26

end Sys2Proof
end

