-- ==== Sys2Proof/Syntax.lean ====
section
/-!
DEFINITION. The instructions of ECO32e: one constructor per row of spec/opcode_table.json, which are
the thirty instructions of spec/00_scope.md R2 and of the opcode map spec/30_encoding.md R85.

Operands stand in the order of the assembler forms (R89, R90): the destination first, and in a store
the stored register (which the source spells rd, R73) first. A register operand is the 5-bit field,
an immediate operand is the field itself, not yet extended: its meaning is in Machine/Operands.lean.
-/

namespace Sys2Proof

/-- The thirty instructions (R2). -/
inductive Instr where
  /-- ADD, format RRR (R100). -/
  | add (rd rs1 rs2 : RegNum)
  /-- ADDI, format RRS (R101). -/
  | addi (rd rs1 : RegNum) (simm : Half)
  /-- SUB, format RRR (R102). -/
  | sub (rd rs1 rs2 : RegNum)
  /-- SUBI, format RRS (R103). -/
  | subi (rd rs1 : RegNum) (simm : Half)
  /-- AND, format RRR (R110). -/
  | and (rd rs1 rs2 : RegNum)
  /-- ANDI, format RRH (R111). -/
  | andi (rd rs1 : RegNum) (uimm : Half)
  /-- OR, format RRR (R112). -/
  | or (rd rs1 rs2 : RegNum)
  /-- ORI, format RRH (R113). -/
  | ori (rd rs1 : RegNum) (uimm : Half)
  /-- XOR, format RRR (R114). -/
  | xor (rd rs1 rs2 : RegNum)
  /-- XORI, format RRH (R115). -/
  | xori (rd rs1 : RegNum) (uimm : Half)
  /-- XNOR, format RRR (R116). -/
  | xnor (rd rs1 rs2 : RegNum)
  /-- XNORI, format RRH (R117). -/
  | xnori (rd rs1 : RegNum) (uimm : Half)
  /-- LDHI, format RHH (R118). -/
  | ldhi (rd : RegNum) (uimm : Half)
  /-- BEQ, format RRB (R131). -/
  | beq (rs1 rs2 : RegNum) (simm : Half)
  /-- BNE, format RRB (R132). -/
  | bne (rs1 rs2 : RegNum) (simm : Half)
  /-- BLEU, format RRB (R133). -/
  | bleu (rs1 rs2 : RegNum) (simm : Half)
  /-- BLTU, format RRB (R134). -/
  | bltu (rs1 rs2 : RegNum) (simm : Half)
  /-- BGEU, format RRB (R135). -/
  | bgeu (rs1 rs2 : RegNum) (simm : Half)
  /-- BGTU, format RRB (R136). -/
  | bgtu (rs1 rs2 : RegNum) (simm : Half)
  /-- J, format J (R140). -/
  | j (simm : JumpField)
  /-- JR, format JR (R141). -/
  | jr (rs : RegNum)
  /-- JAL, format J; the destination is always register 31 (R142). -/
  | jal (simm : JumpField)
  /-- LDW, format RRS (R151). -/
  | ldw (rd rs : RegNum) (simm : Half)
  /-- LDH, format RRS (R152). -/
  | ldh (rd rs : RegNum) (simm : Half)
  /-- LDHU, format RRS (R153). -/
  | ldhu (rd rs : RegNum) (simm : Half)
  /-- LDB, format RRS (R154). -/
  | ldb (rd rs : RegNum) (simm : Half)
  /-- LDBU, format RRS (R155). -/
  | ldbu (rd rs : RegNum) (simm : Half)
  /-- STW, format RRS; rd is the stored register (R156). -/
  | stw (rd rs : RegNum) (simm : Half)
  /-- STH, format RRS; rd is the stored register (R157). -/
  | sth (rd rs : RegNum) (simm : Half)
  /-- STB, format RRS; rd is the stored register (R158). -/
  | stb (rd rs : RegNum) (simm : Half)
deriving DecidableEq, Repr

end Sys2Proof
end

