-- ==== Sys2Proof/Decode.lean ====
section
/-!
DEFINITION. The decoder and the encoder of instruction words, written from the formats and the opcode map of
spec/30_encoding.md (R72 to R79, R85 to R87), and the big-endian bytes of a word (spec/20_memory.md R42).
-/

namespace Sys2Proof

/-! ### Fields of a word (R79) -/

/-- `op = w[31:26]`. -/
def fieldOp (w : Word) : BitVec 6 := w.extractLsb' 26 6

/-- `a = w[25:21]`. -/
def fieldA (w : Word) : RegNum := w.extractLsb' 21 5

/-- `b = w[20:16]`. -/
def fieldB (w : Word) : RegNum := w.extractLsb' 16 5

/-- `c = w[15:11]`. -/
def fieldC (w : Word) : RegNum := w.extractLsb' 11 5

/-- `imm16 = w[15:0]`. -/
def fieldImm16 (w : Word) : Half := w.extractLsb' 0 16

/-- `imm26 = w[25:0]`. -/
def fieldImm26 (w : Word) : JumpField := w.extractLsb' 0 26

/-- The must-be-zero field of format RRR, bits 10:0 (R72). -/
def padRRR (w : Word) : BitVec 11 := w.extractLsb' 0 11

/-- The must-be-zero field of format RHH, bits 25:21 (R75). -/
def padRHH (w : Word) : BitVec 5 := w.extractLsb' 21 5

/-- The must-be-zero fields of format JR, bits 20:0 (R78). -/
def padJR (w : Word) : BitVec 21 := w.extractLsb' 0 21

/-! ### Decoding -/

/-- What a word is (R79, R86, R87). -/
inductive Decoded where
  /-- The coding of an instruction. -/
  | instr (i : Instr)
  /-- One of the 34 opcodes with no entry in the opcode map (R86). -/
  | unknownOpcode
  /-- A known opcode with a must-be-zero field that is not zero (R87). -/
  | reservedEncoding
deriving DecidableEq, Repr

/-- The treatment of a must-be-zero field (R87): with the switch off, a word whose field is not zero is a
reserved encoding; with the switch on the field is ignored. -/
def checkPad (ignorePad : Bool) (padIsZero : Bool) (i : Instr) : Decoded :=
  if ignorePad || padIsZero then .instr i else .reservedEncoding

/-- The word as an instruction: the opcode alone selects it (R79, R85). `ignorePad` is the configuration
switch of R87, default off. -/
def decode (ignorePad : Bool) (w : Word) : Decoded :=
  match (fieldOp w).toNat with
  | 0x00 => checkPad ignorePad (padRRR w == 0) (.add (fieldC w) (fieldA w) (fieldB w))
  | 0x01 => .instr (.addi (fieldB w) (fieldA w) (fieldImm16 w))
  | 0x02 => checkPad ignorePad (padRRR w == 0) (.sub (fieldC w) (fieldA w) (fieldB w))
  | 0x03 => .instr (.subi (fieldB w) (fieldA w) (fieldImm16 w))
  | 0x10 => checkPad ignorePad (padRRR w == 0) (.and (fieldC w) (fieldA w) (fieldB w))
  | 0x11 => .instr (.andi (fieldB w) (fieldA w) (fieldImm16 w))
  | 0x12 => checkPad ignorePad (padRRR w == 0) (.or (fieldC w) (fieldA w) (fieldB w))
  | 0x13 => .instr (.ori (fieldB w) (fieldA w) (fieldImm16 w))
  | 0x14 => checkPad ignorePad (padRRR w == 0) (.xor (fieldC w) (fieldA w) (fieldB w))
  | 0x15 => .instr (.xori (fieldB w) (fieldA w) (fieldImm16 w))
  | 0x16 => checkPad ignorePad (padRRR w == 0) (.xnor (fieldC w) (fieldA w) (fieldB w))
  | 0x17 => .instr (.xnori (fieldB w) (fieldA w) (fieldImm16 w))
  | 0x1F => checkPad ignorePad (padRHH w == 0) (.ldhi (fieldB w) (fieldImm16 w))
  | 0x20 => .instr (.beq (fieldA w) (fieldB w) (fieldImm16 w))
  | 0x21 => .instr (.bne (fieldA w) (fieldB w) (fieldImm16 w))
  | 0x23 => .instr (.bleu (fieldA w) (fieldB w) (fieldImm16 w))
  | 0x25 => .instr (.bltu (fieldA w) (fieldB w) (fieldImm16 w))
  | 0x27 => .instr (.bgeu (fieldA w) (fieldB w) (fieldImm16 w))
  | 0x29 => .instr (.bgtu (fieldA w) (fieldB w) (fieldImm16 w))
  | 0x2A => .instr (.j (fieldImm26 w))
  | 0x2B => checkPad ignorePad (padJR w == 0) (.jr (fieldA w))
  | 0x2C => .instr (.jal (fieldImm26 w))
  | 0x30 => .instr (.ldw (fieldB w) (fieldA w) (fieldImm16 w))
  | 0x31 => .instr (.ldh (fieldB w) (fieldA w) (fieldImm16 w))
  | 0x32 => .instr (.ldhu (fieldB w) (fieldA w) (fieldImm16 w))
  | 0x33 => .instr (.ldb (fieldB w) (fieldA w) (fieldImm16 w))
  | 0x34 => .instr (.ldbu (fieldB w) (fieldA w) (fieldImm16 w))
  | 0x35 => .instr (.stw (fieldB w) (fieldA w) (fieldImm16 w))
  | 0x36 => .instr (.sth (fieldB w) (fieldA w) (fieldImm16 w))
  | 0x37 => .instr (.stb (fieldB w) (fieldA w) (fieldImm16 w))
  | _ => .unknownOpcode

/-- The big-endian bytes of a word, the byte at the lowest address first (R42, R70). -/
def wordBytes (w : Word) : List Byte :=
  [w.extractLsb' 24 8, w.extractLsb' 16 8, w.extractLsb' 8 8, w.extractLsb' 0 8]

/-- Why bytes are not an instruction. -/
inductive DecodeError where
  /-- The opcode has no entry (R86). -/
  | unknownOpcode
  /-- A must-be-zero field is not zero (R87). -/
  | reservedEncoding
  /-- An instruction is exactly four bytes (R70). -/
  | notFourBytes
deriving DecidableEq, Repr

/-- The instruction in a list of bytes, the byte at the lowest address first (R42, R70); total, and every
rejection has a name. -/
def decodeBytes (ignorePad : Bool) (bytes : List Byte) : Except DecodeError Instr :=
  match bytes with
  | [b0, b1, b2, b3] =>
    match decode ignorePad (b0 ++ b1 ++ b2 ++ b3) with
    | .instr i => .ok i
    | .unknownOpcode => .error .unknownOpcode
    | .reservedEncoding => .error .reservedEncoding
  | _ => .error .notFourBytes

/-- The instruction the decoder reads from the `nbits` table bits `w` of an instruction, every bit above
them zero: laid out as the bytes the hardware stores, then decoded. -/
def decodeTableWord (nbits w : Nat) : Option Instr :=
  match decodeBytes false (wordBytes (BitVec.ofNat 32 (w % 2 ^ nbits))) with
  | .ok i => some i
  | .error _ => none

/-! ### Encoding (R8: the first item of a concatenation is the most significant) -/

/-- Format RRR, `op[6] || rs1[5] || rs2[5] || rd[5] || 0[11]` (R72). -/
def formatRRR (op : BitVec 6) (rs1 rs2 rd : RegNum) : Word := op ++ rs1 ++ rs2 ++ rd ++ 0#11

/-- Formats RRS (R73), RRH (R74) and RRB (R76): `op[6]`, two register fields, a 16-bit field. -/
def formatRRI (op : BitVec 6) (a b : RegNum) (imm : Half) : Word := op ++ a ++ b ++ imm

/-- Format RHH, `op[6] || 0[5] || rd[5] || uimm[16]` (R75). -/
def formatRHH (op : BitVec 6) (rd : RegNum) (uimm : Half) : Word := op ++ 0#5 ++ rd ++ uimm

/-- Format J, `op[6] || simm[26]` (R77). -/
def formatJ (op : BitVec 6) (simm : JumpField) : Word := op ++ simm

/-- Format JR, `op[6] || rs[5] || 0[5] || 0[16]` (R78). -/
def formatJR (op : BitVec 6) (rs : RegNum) : Word := op ++ rs ++ 0#5 ++ 0#16

/-- The opcode of an instruction (R85). -/
def opcode : Instr → BitVec 6
  | .add _ _ _ => 0x00
  | .addi _ _ _ => 0x01
  | .sub _ _ _ => 0x02
  | .subi _ _ _ => 0x03
  | .and _ _ _ => 0x10
  | .andi _ _ _ => 0x11
  | .or _ _ _ => 0x12
  | .ori _ _ _ => 0x13
  | .xor _ _ _ => 0x14
  | .xori _ _ _ => 0x15
  | .xnor _ _ _ => 0x16
  | .xnori _ _ _ => 0x17
  | .ldhi _ _ => 0x1F
  | .beq _ _ _ => 0x20
  | .bne _ _ _ => 0x21
  | .bleu _ _ _ => 0x23
  | .bltu _ _ _ => 0x25
  | .bgeu _ _ _ => 0x27
  | .bgtu _ _ _ => 0x29
  | .j _ => 0x2A
  | .jr _ => 0x2B
  | .jal _ => 0x2C
  | .ldw _ _ _ => 0x30
  | .ldh _ _ _ => 0x31
  | .ldhu _ _ _ => 0x32
  | .ldb _ _ _ => 0x33
  | .ldbu _ _ _ => 0x34
  | .stw _ _ _ => 0x35
  | .sth _ _ _ => 0x36
  | .stb _ _ _ => 0x37

/-- The word of an instruction, its coding line in R85. -/
def encode (i : Instr) : Word :=
  match i with
  | .add rd rs1 rs2 => formatRRR (opcode i) rs1 rs2 rd
  | .addi rd rs1 simm => formatRRI (opcode i) rs1 rd simm
  | .sub rd rs1 rs2 => formatRRR (opcode i) rs1 rs2 rd
  | .subi rd rs1 simm => formatRRI (opcode i) rs1 rd simm
  | .and rd rs1 rs2 => formatRRR (opcode i) rs1 rs2 rd
  | .andi rd rs1 uimm => formatRRI (opcode i) rs1 rd uimm
  | .or rd rs1 rs2 => formatRRR (opcode i) rs1 rs2 rd
  | .ori rd rs1 uimm => formatRRI (opcode i) rs1 rd uimm
  | .xor rd rs1 rs2 => formatRRR (opcode i) rs1 rs2 rd
  | .xori rd rs1 uimm => formatRRI (opcode i) rs1 rd uimm
  | .xnor rd rs1 rs2 => formatRRR (opcode i) rs1 rs2 rd
  | .xnori rd rs1 uimm => formatRRI (opcode i) rs1 rd uimm
  | .ldhi rd uimm => formatRHH (opcode i) rd uimm
  | .beq rs1 rs2 simm => formatRRI (opcode i) rs1 rs2 simm
  | .bne rs1 rs2 simm => formatRRI (opcode i) rs1 rs2 simm
  | .bleu rs1 rs2 simm => formatRRI (opcode i) rs1 rs2 simm
  | .bltu rs1 rs2 simm => formatRRI (opcode i) rs1 rs2 simm
  | .bgeu rs1 rs2 simm => formatRRI (opcode i) rs1 rs2 simm
  | .bgtu rs1 rs2 simm => formatRRI (opcode i) rs1 rs2 simm
  | .j simm => formatJ (opcode i) simm
  | .jr rs => formatJR (opcode i) rs
  | .jal simm => formatJ (opcode i) simm
  | .ldw rd rs simm => formatRRI (opcode i) rs rd simm
  | .ldh rd rs simm => formatRRI (opcode i) rs rd simm
  | .ldhu rd rs simm => formatRRI (opcode i) rs rd simm
  | .ldb rd rs simm => formatRRI (opcode i) rs rd simm
  | .ldbu rd rs simm => formatRRI (opcode i) rs rd simm
  | .stw rd rs simm => formatRRI (opcode i) rs rd simm
  | .sth rd rs simm => formatRRI (opcode i) rs rd simm
  | .stb rd rs simm => formatRRI (opcode i) rs rd simm

end Sys2Proof
end

