-- ==== Sys2Proof/Config.lean ====
section
/-!
DEFINITION. What is fixed outside the instruction rules: the addresses of the two peripherals, which the
source fixes (spec/20_memory.md R49), the open parameters of a run (spec/00_scope.md R7), and the free
values, which nothing fixes and which therefore have no body.
-/

namespace Sys2Proof

/-- Whether a region of memory can be written (spec/20_memory.md R50). -/
inductive RegionKind where
  /-- Readable, writable, fetchable. -/
  | ram
  /-- Readable, fetchable, not writable. -/
  | rom
deriving DecidableEq, Repr

/-- One entry of MEM_REGIONS (spec/20_memory.md R50): the addresses from `base` up to, not including,
`base + size`. -/
structure Region where
  base : Nat
  size : Nat
  kind : RegionKind
deriving DecidableEq, Repr

/-- The parameters of a run that the spec leaves open and that no step changes (spec/10_state.md R34). -/
structure Params where
  /-- RESET_PC: the pc after reset (R7, D6). -/
  resetPc : Word
  /-- MEM_REGIONS: the addressable storage other than the two peripherals (R7, R50, D8). -/
  regions : List Region
  /-- The configuration switch of spec/30_encoding.md R87, default off: decode on the opcode alone and
  ignore the must-be-zero fields. -/
  ignoreMustBeZero : Bool
deriving DecidableEq, Repr

namespace Config

/-- Base address of the character display (R49, R186). -/
def displayBase : Nat := 0x30100000

/-- Lines of the display (R186). -/
def displayLines : Nat := 30

/-- Usable columns of a line (R186). -/
def displayColumns : Nat := 80

/-- Words that one line occupies (R186). -/
def displayLineWords : Nat := 128

/-- Address of the keyboard status register (R49, R189). -/
def keyboardStatus : Nat := 0x30200000

/-- Address of the keyboard data register (R49, R189). -/
def keyboardData : Nat := 0x30200004

/-- DESIGN CHOICE (logs 4 and 5, unsafe for a claim about State.reset): the parameters State.reset takes,
which are the setting of spec/95_test_vectors.md section 1. The spec recommends no value. -/
def launchParams : Params where
  resetPc := 0x00001000#32
  regions :=
    [ { base := 0x00000000, size := 0x00010000, kind := .ram },
      { base := 0x00020000, size := 0x00001000, kind := .rom },
      { base := 0xFFFFF000, size := 0x00001000, kind := .ram } ]
  ignoreMustBeZero := false

/-- Free value: the bits of the `n`-th keyboard read that the source does not describe (R191, R192;
log 9). -/
opaque freeWord (n : Nat) : BitVec 32

/-- Free value: what the byte at address `a` holds after the `epoch`-th reset when neither MEM_INIT nor a
store has given it a value (R33; log 6). -/
opaque memInit (epoch a : Nat) : BitVec 8

/-- Free value: the word in display cell `k` after the `epoch`-th reset, before any program wrote it
(R33; log 8). -/
opaque cellInit (epoch k : Nat) : BitVec 32

/-- Free value: register `r` after the `epoch`-th reset event of a run (R33, R211; log 14); the same at every
read until written (log 31). -/
opaque resetReg (epoch r : Nat) : BitVec 32

/-- Free value: kbd_ready after the `epoch`-th reset event of a run (R33, R211; log 14); the same at every
read until written (log 31). -/
opaque resetKbdReady (epoch : Nat) : Bool

/-- Free value: kbd_char after the `epoch`-th reset event of a run (R33, R211; log 14); the same at every
read until written (log 31). -/
opaque resetKbdChar (epoch : Nat) : BitVec 8

end Config

end Sys2Proof
end

