-- ==== Sys2Proof/Machine/State.lean ====
section
/-!
DEFINITION. The state of ECO32e as plain data (spec/10_state.md R20 to R34), the outcomes that stop a step, and
the state after reset.
-/

namespace Sys2Proof.Machine

/-- The causes of the halted state (spec/60_exceptions.md R175). -/
inductive Cause where
  /-- The fetched word's opcode has no entry (R172). Info: the word. -/
  | unknownOpcode
  /-- The pc is not a multiple of 4 at fetch (R43). Info: the pc. -/
  | misalignedFetch
  /-- A word access at an address that is not a multiple of 4, or a halfword access at an odd address
  (R44). Info: the effective address. -/
  | misalignedData
  /-- A fetch, load or store at an address in no region and no peripheral window, or a fetch from a
  peripheral window (R50). Info: the address. -/
  | unmappedAccess
  /-- A store into a ROM region (R50). Info: the effective address. -/
  | romWrite
deriving DecidableEq, Repr

/-- The record `halted` holds when it is not none: cause, address of the instruction, word or address
(spec/10_state.md R29). -/
structure Halt where
  cause : Cause
  atPc : Word
  info : Word
deriving DecidableEq, Repr

/-- One entry of the order in which the agents take their steps (spec/00_scope.md R14, log 11). -/
inductive Turn where
  /-- The CPU executes one instruction (R216). -/
  | cpu
  /-- The keyboard agent delivers `c` (R190). If a character is still pending, `replace` says which of the
  two admitted outcomes happens: the new character is taken (true) or the old one is kept (false). -/
  | key (c : Byte) (replace : Bool)
  /-- The environment resets the machine (R210, R211). -/
  | reset
deriving DecidableEq, Repr

/-- Memory: the bytes that the launch image or a store has given a value, as (address, byte) pairs with
strictly rising addresses (spec/10_state.md R32). -/
abbrev Memory := List Host.Cell

/-- The display: the words a program has written since reset, as (cell, word) pairs with strictly rising
cell numbers, the cell of line l and column c having the number `l * 128 + c` (spec/10_state.md R31, spec/60_exceptions.md R186). -/
abbrev Display := List (Nat × Word)

/-- The machine (spec/10_state.md section 1). -/
structure State where
  /-- The general registers; register 0 is read and written through `State.reg` and `State.setReg` (R20, R21). -/
  regs : Vector Word 32
  /-- The program counter: the address of the instruction being executed (R24). -/
  pc : Word
  /-- Whether the controller is trapped, and why (R29). -/
  halted : Option Halt
  /-- Memory other than the two peripherals (R32). -/
  mem : Memory
  /-- kbd_ready: a character has been received (R30). -/
  kbdReady : Bool
  /-- kbd_char: the character received (R30). -/
  kbdChar : Byte
  /-- The character display (R31). -/
  disp : Display
  /-- The parameters of the run, which no step changes (R34). -/
  params : Params
  /-- The steps the agents take next, first the next one; when it is empty the CPU alone steps (log 11). -/
  turns : List Turn
  /-- The model's own: picks the next free value of a keyboard read (log 10). -/
  free : Nat
  /-- The model's own: how many reset events this run has seen (log 10). -/
  epoch : Nat
deriving DecidableEq, Repr

/-- Why the machine stops with a fault. -/
inductive Fault where
  /-- Raised by a CPU turn of a machine that is in the halted state, with the record of that state: "While
  halted is not none the CPU has no step" (R173). Safe: the machine has no such step either. -/
  | halted (h : Halt)
deriving DecidableEq, Repr

/-- Why a step has no meaning (spec/60_exceptions.md R177). -/
inductive Refusal where
  /-- Raised by the arm of an instruction that has no meaning yet; no arm does. Safe. -/
  | notModelled (mnemonic : String)
  /-- Raised by decoding a known opcode whose must-be-zero field is not zero (R87). Safe: nothing is claimed
  of such a word. -/
  | reservedEncoding
  /-- Raised by a halfword or byte access to a peripheral window (R53). Safe: the source declines to define it. -/
  | subWordPeripheralAccess
  /-- Raised by a word read of the display window, and by a word write to it that is not a cell (R188). Safe. -/
  | displayAccess
  /-- Raised by a word write to the keyboard window (R193). Safe. -/
  | keyboardAccess
deriving DecidableEq, Repr

/-- What a step or the meaning of an instruction answers. -/
abbrev Result := Host.Outcome State Fault Refusal

/-- What a memory primitive answers (spec/00_scope.md R11): it completes, it raises a model fault, or the spec
gives it no meaning. -/
inductive Access (α : Type) where
  | done (a : α)
  | raised (c : Cause) (info : Word)
  | refused (r : Refusal)
deriving DecidableEq, Repr

/-- The widths of an access (spec/20_memory.md R45). -/
inductive Width where
  | byte
  | half
  | word
deriving DecidableEq, Repr

/-- The bytes an access moves (R45). -/
abbrev Width.bytes : Width → Nat
  | .byte => 1
  | .half => 2
  | .word => 4

/-- The bits an access moves (R45). -/
abbrev Width.bits : Width → Nat
  | .byte => 8
  | .half => 16
  | .word => 32

/-- The machine at launch, right after reset, with the given parameters, launch image (MEM_INIT) and order
of steps (R33, R34). Registers and keyboard hold the values logs 3 and 7 name; memory that the image
does not list and every display cell hold free values. -/
def State.launch (params : Params) (image : Memory) (turns : List Turn) : State where
  regs := Vector.replicate 32 0#32
  pc := params.resetPc
  halted := none
  mem := image
  kbdReady := false
  kbdChar := 0#8
  disp := []
  params := params
  turns := turns
  free := 0
  epoch := 0

/-- The machine right after reset (R33): the parameters of log 4 and log 5, nothing placed in memory, and an
environment that stays silent. -/
def State.reset : State := State.launch Config.launchParams [] []

end Sys2Proof.Machine
end

