-- ==== Sys2Proof/Machine/Memory.lean ====
section
/-!
DEFINITION. Reading and writing one byte of memory, several bytes in big-endian order (spec/20_memory.md R42), and
one cell of the display, over the lists that hold them.
-/

namespace Sys2Proof.Machine

/-! ### Lists of (key, value) pairs with strictly rising keys -/

/-- The value listed under a key. -/
def lookupKey {β : Type} : List (Nat × β) → Nat → Option β
  | [], _ => none
  | (k, v) :: rest, a => if k = a then some v else lookupKey rest a

/-- The list with `v` under the key `a`, every other key as before. -/
def insertKey {β : Type} : List (Nat × β) → Nat → β → List (Nat × β)
  | [], a, v => [(a, v)]
  | (k, w) :: rest, a, v =>
    if a < k then (a, v) :: (k, w) :: rest
    else if a = k then (a, v) :: rest
    else (k, w) :: insertKey rest a v

/-- The keys rise strictly and all lie above `lo`. -/
def risingAbove {β : Type} : Nat → List (Nat × β) → Bool
  | _, [] => true
  | lo, (k, _) :: rest => decide (lo < k) && risingAbove k rest

/-- The keys rise strictly. -/
def rising {β : Type} : List (Nat × β) → Bool
  | [] => true
  | (k, _) :: rest => risingAbove k rest

/-! ### Memory -/

/-- The canonical form of memory: addresses strictly rising. An address that is not listed has been given
no byte (log 6), so no entry says what an unlisted address says. -/
def Memory.wf (m : Memory) : Bool := rising m

/-- Bytes `bs` at `a`, `a + 1`, and so on. -/
def writeBytes : Memory → Nat → List Byte → Memory
  | m, _, [] => m
  | m, a, b :: bs => writeBytes (insertKey m a b) (a + 1) bs

/-- The bytes of a value, the most significant first (R42, R52). -/
def valueBytes (w : Width) (v : BitVec w.bits) : List Byte :=
  match w, v with
  | .byte, v => [v]
  | .half, v => [v.extractLsb' 8 8, v.extractLsb' 0 8]
  | .word, v => [v.extractLsb' 24 8, v.extractLsb' 16 8, v.extractLsb' 8 8, v.extractLsb' 0 8]

/-- The byte at an address of a region: what the launch image or the last store put there, else a free
value (R33, R55; log 6). -/
def State.byteAt (s : State) (a : Nat) : Byte :=
  (lookupKey s.mem a).getD (Config.memInit s.epoch a)

/-- `mem[a] || mem[a+1] || ...`: the first byte is the most significant (R42, R51). -/
def State.valueAt (s : State) (w : Width) (a : Nat) : BitVec w.bits :=
  match w with
  | .byte => s.byteAt a
  | .half => s.byteAt a ++ s.byteAt (a + 1)
  | .word => s.byteAt a ++ s.byteAt (a + 1) ++ s.byteAt (a + 2) ++ s.byteAt (a + 3)

/-- Whether all of `n` bytes from `a` lie in a region (R50). -/
def regionHolds (r : Region) (a n : Nat) : Bool :=
  decide (r.base ≤ a) && decide (a + n ≤ r.base + r.size)

/-- Whether some of `n` bytes from `a` lie in a region (R50, R52). -/
def regionMeets (r : Region) (a n : Nat) : Bool :=
  decide (a < r.base + r.size) && decide (r.base < a + n) && decide (0 < r.size) && decide (0 < n)

/-- All `n` bytes from `a` lie in one RAM or ROM region (R51, R54). -/
def State.inRegion (s : State) (a n : Nat) : Bool :=
  s.params.regions.any (fun r => regionHolds r a n)

/-- All `n` bytes from `a` lie in one RAM region (R52). -/
def State.inRam (s : State) (a n : Nat) : Bool :=
  s.params.regions.any (fun r => r.kind == .ram && regionHolds r a n)

/-- Some of the `n` bytes from `a` lie in a ROM region (R52). -/
def State.meetsRom (s : State) (a n : Nat) : Bool :=
  s.params.regions.any (fun r => r.kind == .rom && regionMeets r a n)

/-- Whether an address is a multiple of the access width (R44). -/
def aligned (w : Width) (a : Word) : Bool := a.toNat % w.bytes == 0

end Sys2Proof.Machine
end

