-- ==== Sys2Proof/Machine/Devices.lean ====
section
/-!
DEFINITION. The two peripherals (spec/60_exceptions.md R185 to R193): which addresses are theirs, and what a word
read or a word write of them does.
-/

namespace Sys2Proof.Machine

/-- The display window, 0x30100000 to 0x30103BFF (R49, R186). -/
def inDisplay (a : Word) : Bool :=
  decide (Config.displayBase ≤ a.toNat)
    && decide (a.toNat < Config.displayBase + Config.displayLines * Config.displayLineWords * 4)

/-- The keyboard window, 0x30200000 to 0x30200007 (R49, R193). -/
def inKeyboard (a : Word) : Bool :=
  decide (Config.keyboardStatus ≤ a.toNat) && decide (a.toNat < Config.keyboardData + 4)

/-- An address in a peripheral window (R49). -/
def inPeripheral (a : Word) : Bool := inDisplay a || inKeyboard a

/-! ### Character display -/

/-- `k = (a - 0x30100000) / 4`, which is `line * 128 + column` (R186). -/
def cellNumber (a : Word) : Nat := (a.toNat - Config.displayBase) / 4

/-- Whether `k` is one of the 2400 cells: line 0 to 29, column 0 to 79 (R186). -/
def isCell (k : Nat) : Bool :=
  decide (k / Config.displayLineWords < Config.displayLines)
    && decide (k % Config.displayLineWords < Config.displayColumns)

/-- `disp[line][column]`, read by an observer of the model, not by the program (R31, R188): the word last
written to the cell, else a free value (log 8). -/
def State.cell (s : State) (line column : Nat) : Word :=
  (lookupKey s.disp (line * Config.displayLineWords + column)).getD
    (Config.cellInit s.epoch (line * Config.displayLineWords + column))

/-- The ASCII code of the character shown: the lowest 8 bits of the cell (R187). -/
def State.shownChar (s : State) (line column : Nat) : Byte := (s.cell line column).extractLsb' 0 8

/-! ### Keyboard -/

/-- The word a status read returns: bit 0 is kbd_ready, bits 31:1 are a free value (R191, log 9). -/
def State.statusWord (s : State) : Word :=
  (Config.freeWord s.free).extractLsb' 1 31 ++ BitVec.ofBool s.kbdReady

/-- The word a data read returns: with a character pending, bits 7:0 are the character and bits 31:8 a
free value; with none pending, all 32 bits are a free value (R192, log 9). -/
def State.dataWord (s : State) : Word :=
  if s.kbdReady then (Config.freeWord s.free).extractLsb' 8 24 ++ s.kbdChar else Config.freeWord s.free

/-! ### Word accesses -/

/-- A word read of a peripheral window (R51 step 2): the display refuses it (R188), the keyboard status
register has no side effect (R191), the keyboard data register clears kbd_ready (R192). A keyboard
read uses up one free value. -/
def State.deviceRead (s : State) (a : Word) : Access (Word × State) :=
  if inDisplay a then .refused .displayAccess
  else if a.toNat = Config.keyboardStatus then .done (s.statusWord, { s with free := s.free + 1 })
  else if a.toNat = Config.keyboardData then
    .done (s.dataWord, { s with kbdReady := false, free := s.free + 1 })
  else .refused .keyboardAccess

/-- A word write to a peripheral window (R52 step 2): a display cell takes the whole word (R187), every
other word of the display window refuses it (R188), the keyboard refuses it (R193). -/
def State.deviceWrite (s : State) (a : Word) (v : Word) : Access State :=
  if inDisplay a then
    if isCell (cellNumber a) then .done { s with disp := insertKey s.disp (cellNumber a) v }
    else .refused .displayAccess
  else .refused .keyboardAccess

end Sys2Proof.Machine
end

