-- ==== Sys2Proof/Machine/Operands.lean ====
section
/-!
DEFINITION. The operand forms of the instructions: how an immediate field becomes the 32-bit value an operation
uses (spec/30_encoding.md R80 to R84), and where a branch or jump goes.
-/

namespace Sys2Proof.Machine

/-- `sext_32(simm)`: the sign-extended 16-bit constant of ADDI, SUBI, loads and stores (R80). -/
def signedImm (simm : Half) : Word := simm.signExtend 32

/-- `zext_32(uimm)`: the zero-extended 16-bit constant of ANDI, ORI, XORI and XNORI (R81). -/
def unsignedImm (uimm : Half) : Word := uimm.setWidth 32

/-- `zext_32(uimm) << 16`: the constant of LDHI (R84). -/
def highImm (uimm : Half) : Word := uimm.setWidth 32 <<< 16

/-- `sext_32(simm) << 2`: the offset of a conditional branch (R82). -/
def branchOffset (simm : Half) : Word := simm.signExtend 32 <<< 2

/-- `sext_32(simm) << 2` of the 26-bit field: the offset of J and JAL (R83). -/
def jumpOffset (simm : JumpField) : Word := simm.signExtend 32 <<< 2

/-- "The address of the instruction following" the one at `pc`, modulo 2^32 (R25). -/
def following (pc : Word) : Word := pc + 4#32

/-- Where a taken branch at `pc` goes (R82, R130). -/
def branchTarget (pc : Word) (simm : Half) : Word := following pc + branchOffset simm

/-- Where a jump at `pc` goes (R83, R140). -/
def jumpTarget (pc : Word) (simm : JumpField) : Word := following pc + jumpOffset simm

/-- The effective address of a load or store: base register plus signed displacement, modulo 2^32
(R60, R150). -/
def effectiveAddress (base : Word) (simm : Half) : Word := base + signedImm simm

/-- Sign extension of a loaded byte or halfword to a register (R45). -/
def signExtended {n : Nat} (v : BitVec n) : Word := v.signExtend 32

/-- Zero extension of a loaded byte or halfword to a register (R45). -/
def zeroExtended {n : Nat} (v : BitVec n) : Word := v.setWidth 32

end Sys2Proof.Machine
end

