-- ==== Sys2Proof/Machine/Ops.lean ====
section
/-!
DEFINITION. The operations the meanings share: registers and the pc (spec/10_state.md R20 to R26), entering the halted
state and leaving it (spec/60_exceptions.md R172 to R176, spec/70_reset_and_hazards.md R211), the keyboard agent's step (R190),
and the memory primitives MemRead, MemWrite and Fetch (spec/20_memory.md R51, R52, R54).
-/

namespace Sys2Proof.Machine

/-! ### Registers and the pc -/

/-- `x[r]`: register 0 reads as zero (R11, R21). -/
def State.reg (s : State) (r : RegNum) : Word := if r = 0#5 then 0#32 else s.regs[r.toNat]'r.isLt

/-- `x[r] <- v`: a write to register 0 is discarded (R11, R21). -/
def State.setReg (s : State) (r : RegNum) (v : Word) : State :=
  { s with regs := if r = 0#5 then s.regs else s.regs.set r.toNat v r.isLt }

/-- `pc <- t` (R11). -/
def State.setPc (s : State) (t : Word) : State := { s with pc := t }

/-- `pc <- pc + 4` (R25). -/
def State.advance (s : State) : State := s.setPc (following s.pc)

/-- The end of an instruction that computes a value: the register write and the pc write take effect
together (R12, R25). -/
def State.writeBack (s : State) (rd : RegNum) (v : Word) : State := (s.setReg rd v).advance

/-- The end of a conditional branch (R130). -/
def State.branchIf (s : State) (taken : Bool) (simm : Half) : State :=
  s.setPc (if taken then branchTarget s.pc simm else following s.pc)

/-! ### The halted state -/

/-- `raise c(info)`: enter the halted state. Nothing else changes and the pc keeps the address of the
instruction (R172, R175, R176). This machine has no other exception entry: nothing is saved, no mode
changes and control goes nowhere (R170, R179). -/
def State.raise (s : State) (c : Cause) (info : Word) : State :=
  { s with halted := some { cause := c, atPc := s.pc, info := info } }

/-- The registers after a reset event: register 0 is zero, the others are free values (R33, R211; log 14).
DESIGN CHOICE (log 31, unsafe): each value is stored, so it reads the same at every read until the register
is written or the next reset event; the spec leaves open whether it is stable. -/
@[irreducible] def resetRegs (epoch : Nat) : Vector Word 32 :=
  Vector.ofFn (fun r => if r.val = 0 then 0#32 else Config.resetReg epoch r.val)

/-- Whether an address lies in a ROM region. -/
def romHolds (p : Params) (a : Nat) : Bool :=
  p.regions.any (fun r => r.kind == .rom && regionHolds r a 1)

/-- A reset event, the only way out of the halted state (R173, R210, R211): the halted record goes, the pc is
RESET_PC, ROM keeps its image, and everything else the spec leaves unspecified becomes free values of a
new epoch (log 14). In registers and keyboard they then stay as they are until written (DESIGN CHOICE, log 31);
for memory and display see logs 6 and 8. -/
def State.resetEvent (s : State) : State :=
  { s with
    halted := none
    pc := s.params.resetPc
    regs := resetRegs (s.epoch + 1)
    mem := s.mem.filter (fun cell => romHolds s.params cell.1)
    kbdReady := Config.resetKbdReady (s.epoch + 1)
    kbdChar := Config.resetKbdChar (s.epoch + 1)
    disp := []
    epoch := s.epoch + 1 }

/-! ### The keyboard agent -/

/-- The keyboard agent delivers `c` (R190): with no character pending it is taken; with one pending,
kbd_ready stays 1 and the old character is kept or replaced, both admitted (log 16). -/
def State.keyArrives (s : State) (c : Byte) (replace : Bool) : State :=
  { s with
    kbdChar := if s.kbdReady && !replace then s.kbdChar else c
    kbdReady := true }

/-! ### Memory primitives -/

/-- `MemRead(a, n)`, its checks in the order of R51. The state it returns carries the device's side effect. -/
def State.memRead (s : State) (w : Width) (a : Word) : Access (BitVec w.bits × State) :=
  if aligned w a then
    if inPeripheral a then
      match w with
      | .word => s.deviceRead a
      | .half => .refused .subWordPeripheralAccess
      | .byte => .refused .subWordPeripheralAccess
    else if s.inRegion a.toNat w.bytes then .done (s.valueAt w a.toNat, s)
    else .raised .unmappedAccess a
  else .raised .misalignedData a

/-- `MemWrite(a, n, v)`, its checks in the order of R52. -/
def State.memWrite (s : State) (w : Width) (a : Word) (v : BitVec w.bits) : Access State :=
  if aligned w a then
    if inPeripheral a then
      match w, v with
      | .word, v => s.deviceWrite a v
      | .half, _ => .refused .subWordPeripheralAccess
      | .byte, _ => .refused .subWordPeripheralAccess
    else if s.inRam a.toNat w.bytes then
      .done { s with mem := writeBytes s.mem a.toNat (valueBytes w v) }
    else if s.meetsRom a.toNat w.bytes then .raised .romWrite a
    else .raised .unmappedAccess a
  else .raised .misalignedData a

/-- `Fetch(a)`, its checks in the order of R54; a peripheral window is never fetched from (R50). -/
def State.fetch (s : State) (a : Word) : Access Word :=
  if aligned .word a then
    if s.inRegion a.toNat 4 && !inPeripheral a then .done (s.valueAt .word a.toNat)
    else .raised .unmappedAccess a
  else .raised .misalignedFetch a

/-! ### Loads and stores -/

/-- The effective address of a load or store in this state (R150). -/
def State.address (s : State) (rs : RegNum) (simm : Half) : Word := effectiveAddress (s.reg rs) simm

/-- The order of events of a load (R159): address, MemRead, then the register and the pc. A load into
register 0 still reads. `widen` is the extension of the loaded value (R45). -/
def State.load (s : State) (w : Width) (widen : BitVec w.bits → Word) (rd rs : RegNum) (simm : Half) :
    Result :=
  match s.memRead w (s.address rs simm) with
  | .done (v, s') => .next (s'.writeBack rd (widen v))
  | .raised c info => .next (s.raise c info)
  | .refused r => .refused r

/-- The order of events of a store (R159): address, MemWrite, then the pc. -/
def State.store (s : State) (w : Width) (v : BitVec w.bits) (rs : RegNum) (simm : Half) : Result :=
  match s.memWrite w (s.address rs simm) v with
  | .done s' => .next s'.advance
  | .raised c info => .next (s.raise c info)
  | .refused r => .refused r

end Sys2Proof.Machine
end

