-- ==== Sys2Proof/Machine/Arithmetic.lean ====
section
/-!
DEFINITION. The arithmetic instructions ADD, ADDI, SUB, SUBI (spec/40_arithmetic.md): 32-bit arithmetic modulo
2^32, overflow ignored, no flags (R104).
-/

namespace Sys2Proof.Machine

/-- ADD: `x[rd] <- x[rs1] + x[rs2]` (R100). -/
def execAdd (rd rs1 rs2 : RegNum) (s : State) : Result :=
  .next (s.writeBack rd (s.reg rs1 + s.reg rs2))

/-- ADDI: `x[rd] <- x[rs1] + sext_32(simm)` (R101). -/
def execAddi (rd rs1 : RegNum) (simm : Half) (s : State) : Result :=
  .next (s.writeBack rd (s.reg rs1 + signedImm simm))

/-- SUB: `x[rd] <- x[rs1] - x[rs2]` (R102). -/
def execSub (rd rs1 rs2 : RegNum) (s : State) : Result :=
  .next (s.writeBack rd (s.reg rs1 - s.reg rs2))

/-- SUBI: `x[rd] <- x[rs1] - sext_32(simm)` (R103). -/
def execSubi (rd rs1 : RegNum) (simm : Half) (s : State) : Result :=
  .next (s.writeBack rd (s.reg rs1 - signedImm simm))

end Sys2Proof.Machine
end

