-- ==== Sys2Proof/Machine/Flags.lean ====
section
/-!
DEFINITION. ECO32e has no flags and no condition codes: no instruction records carry, overflow, zero or sign
(spec/10_state.md R23, spec/40_arithmetic.md R104). What stands in their place are the six comparisons that the
conditional branches make between two registers (spec/42_branch.md R131 to R136).
-/

namespace Sys2Proof.Machine

/-- BEQ: all 32 bits are equal (R131). -/
def condEq (a b : Word) : Bool := a == b

/-- BNE (R132). -/
def condNe (a b : Word) : Bool := a != b

/-- BLEU: `u(a) <= u(b)` (R133). -/
def condLeu (a b : Word) : Bool := decide (a.toNat ≤ b.toNat)

/-- BLTU: `u(a) < u(b)` (R134). -/
def condLtu (a b : Word) : Bool := decide (a.toNat < b.toNat)

/-- BGEU: `u(a) >= u(b)` (R135). -/
def condGeu (a b : Word) : Bool := decide (b.toNat ≤ a.toNat)

/-- BGTU: `u(a) > u(b)` (R136). -/
def condGtu (a b : Word) : Bool := decide (b.toNat < a.toNat)

end Sys2Proof.Machine
end

