-- ==== Sys2Proof/Machine/Branch.lean ====
section
/-!
DEFINITION. The conditional branches BEQ, BNE, BLEU, BLTU, BGEU, BGTU (spec/42_branch.md). They write the pc and
nothing else (R130), and have no delay slot (R137).
-/

namespace Sys2Proof.Machine

/-- BEQ: taken when `x[rs1] = x[rs2]` (R131). -/
def execBeq (rs1 rs2 : RegNum) (simm : Half) (s : State) : Result :=
  .next (s.branchIf (condEq (s.reg rs1) (s.reg rs2)) simm)

/-- BNE: taken when `x[rs1] != x[rs2]` (R132). -/
def execBne (rs1 rs2 : RegNum) (simm : Half) (s : State) : Result :=
  .next (s.branchIf (condNe (s.reg rs1) (s.reg rs2)) simm)

/-- BLEU: taken when `x[rs1] <= (unsigned) x[rs2]` (R133). -/
def execBleu (rs1 rs2 : RegNum) (simm : Half) (s : State) : Result :=
  .next (s.branchIf (condLeu (s.reg rs1) (s.reg rs2)) simm)

/-- BLTU: taken when `x[rs1] < (unsigned) x[rs2]` (R134). -/
def execBltu (rs1 rs2 : RegNum) (simm : Half) (s : State) : Result :=
  .next (s.branchIf (condLtu (s.reg rs1) (s.reg rs2)) simm)

/-- BGEU: taken when `x[rs1] >= (unsigned) x[rs2]` (R135). -/
def execBgeu (rs1 rs2 : RegNum) (simm : Half) (s : State) : Result :=
  .next (s.branchIf (condGeu (s.reg rs1) (s.reg rs2)) simm)

/-- BGTU: taken when `x[rs1] > (unsigned) x[rs2]` (R136). -/
def execBgtu (rs1 rs2 : RegNum) (simm : Half) (s : State) : Result :=
  .next (s.branchIf (condGtu (s.reg rs1) (s.reg rs2)) simm)

end Sys2Proof.Machine
end

