-- ==== Sys2Proof/Machine/Jump.lean ====
section
/-!
DEFINITION. The jumps J, JR, JAL (spec/43_jump.md).
-/

namespace Sys2Proof.Machine

/-- J: `pc <- pc + 4 + (sext_32(simm) << 2)` (R140). -/
def execJ (simm : JumpField) (s : State) : Result :=
  .next (s.setPc (jumpTarget s.pc simm))

/-- JR: `pc <- x[rs]`, all 32 bits (R141). -/
def execJr (rs : RegNum) (s : State) : Result :=
  .next (s.setPc (s.reg rs))

/-- JAL: `x[31] <- pc + 4` and `pc <- pc + 4 + (sext_32(simm) << 2)`, both from the pc of the JAL (R142). -/
def execJal (simm : JumpField) (s : State) : Result :=
  .next ((s.setReg 31#5 (following s.pc)).setPc (jumpTarget s.pc simm))

end Sys2Proof.Machine
end

