-- ==== Sys2Proof/Machine/LoadStore.lean ====
section
/-!
DEFINITION. The loads LDW, LDH, LDHU, LDB, LDBU and the stores STW, STH, STB (spec/44_load_store.md), the only way to
data memory and to the peripherals. Which faults and refusals they meet, and in which order, is R159.
-/

namespace Sys2Proof.Machine

/-- LDW: `x[rd] <- MemRead(ea, 4)` (R151). -/
def execLdw (rd rs : RegNum) (simm : Half) (s : State) : Result :=
  s.load .word (fun v => v) rd rs simm

/-- LDH: `x[rd] <- sext_32(MemRead(ea, 2))` (R152). -/
def execLdh (rd rs : RegNum) (simm : Half) (s : State) : Result :=
  s.load .half signExtended rd rs simm

/-- LDHU: `x[rd] <- zext_32(MemRead(ea, 2))` (R153). -/
def execLdhu (rd rs : RegNum) (simm : Half) (s : State) : Result :=
  s.load .half zeroExtended rd rs simm

/-- LDB: `x[rd] <- sext_32(MemRead(ea, 1))` (R154). -/
def execLdb (rd rs : RegNum) (simm : Half) (s : State) : Result :=
  s.load .byte signExtended rd rs simm

/-- LDBU: `x[rd] <- zext_32(MemRead(ea, 1))` (R155). -/
def execLdbu (rd rs : RegNum) (simm : Half) (s : State) : Result :=
  s.load .byte zeroExtended rd rs simm

/-- STW: `MemWrite(ea, 4, x[rd])` (R156). -/
def execStw (rd rs : RegNum) (simm : Half) (s : State) : Result :=
  s.store .word (s.reg rd) rs simm

/-- STH: `MemWrite(ea, 2, x[rd][15:0])` (R157). -/
def execSth (rd rs : RegNum) (simm : Half) (s : State) : Result :=
  s.store .half ((s.reg rd).extractLsb' 0 16) rs simm

/-- STB: `MemWrite(ea, 1, x[rd][7:0])` (R158). -/
def execStb (rd rs : RegNum) (simm : Half) (s : State) : Result :=
  s.store .byte ((s.reg rd).extractLsb' 0 8) rs simm

end Sys2Proof.Machine
end

