-- ==== Sys2Proof/Machine/Logic.lean ====
section
/-!
DEFINITION. The logical instructions AND, ANDI, OR, ORI, XOR, XORI, XNOR, XNORI, and LDHI (spec/41_logic.md). The
immediate forms zero-extend their constant.
-/

namespace Sys2Proof.Machine

/-- AND: `x[rd] <- x[rs1] & x[rs2]` (R110). -/
def execAnd (rd rs1 rs2 : RegNum) (s : State) : Result :=
  .next (s.writeBack rd (s.reg rs1 &&& s.reg rs2))

/-- ANDI: `x[rd] <- x[rs1] & zext_32(uimm)` (R111). -/
def execAndi (rd rs1 : RegNum) (uimm : Half) (s : State) : Result :=
  .next (s.writeBack rd (s.reg rs1 &&& unsignedImm uimm))

/-- OR: `x[rd] <- x[rs1] | x[rs2]` (R112). -/
def execOr (rd rs1 rs2 : RegNum) (s : State) : Result :=
  .next (s.writeBack rd (s.reg rs1 ||| s.reg rs2))

/-- ORI: `x[rd] <- x[rs1] | zext_32(uimm)` (R113). -/
def execOri (rd rs1 : RegNum) (uimm : Half) (s : State) : Result :=
  .next (s.writeBack rd (s.reg rs1 ||| unsignedImm uimm))

/-- XOR: `x[rd] <- x[rs1] ^ x[rs2]` (R114). -/
def execXor (rd rs1 rs2 : RegNum) (s : State) : Result :=
  .next (s.writeBack rd (s.reg rs1 ^^^ s.reg rs2))

/-- XORI: `x[rd] <- x[rs1] ^ zext_32(uimm)` (R115). -/
def execXori (rd rs1 : RegNum) (uimm : Half) (s : State) : Result :=
  .next (s.writeBack rd (s.reg rs1 ^^^ unsignedImm uimm))

/-- XNOR: `x[rd] <- ~(x[rs1] ^ x[rs2])` (R116). -/
def execXnor (rd rs1 rs2 : RegNum) (s : State) : Result :=
  .next (s.writeBack rd (~~~(s.reg rs1 ^^^ s.reg rs2)))

/-- XNORI: `x[rd] <- ~(x[rs1] ^ zext_32(uimm))` (R117). -/
def execXnori (rd rs1 : RegNum) (uimm : Half) (s : State) : Result :=
  .next (s.writeBack rd (~~~(s.reg rs1 ^^^ unsignedImm uimm)))

/-- LDHI: `x[rd] <- zext_32(uimm) << 16` (R118). -/
def execLdhi (rd : RegNum) (uimm : Half) (s : State) : Result :=
  .next (s.writeBack rd (highImm uimm))

end Sys2Proof.Machine
end

