-- ==== Sys2Proof/Machine/Dispatch.lean ====
section
/-!
DEFINITION. The meaning of every instruction, one arm per constructor of `Instr`.
-/

namespace Sys2Proof.Machine

def exec (i : Instr) (s : State) : Host.Outcome State Fault Refusal :=
  match i with
  | .add rd rs1 rs2 => Sys2Proof.Machine.execAdd rd rs1 rs2 s
  | .addi rd rs1 simm => Sys2Proof.Machine.execAddi rd rs1 simm s
  | .sub rd rs1 rs2 => Sys2Proof.Machine.execSub rd rs1 rs2 s
  | .subi rd rs1 simm => Sys2Proof.Machine.execSubi rd rs1 simm s
  | .and rd rs1 rs2 => Sys2Proof.Machine.execAnd rd rs1 rs2 s
  | .andi rd rs1 uimm => Sys2Proof.Machine.execAndi rd rs1 uimm s
  | .or rd rs1 rs2 => Sys2Proof.Machine.execOr rd rs1 rs2 s
  | .ori rd rs1 uimm => Sys2Proof.Machine.execOri rd rs1 uimm s
  | .xor rd rs1 rs2 => Sys2Proof.Machine.execXor rd rs1 rs2 s
  | .xori rd rs1 uimm => Sys2Proof.Machine.execXori rd rs1 uimm s
  | .xnor rd rs1 rs2 => Sys2Proof.Machine.execXnor rd rs1 rs2 s
  | .xnori rd rs1 uimm => Sys2Proof.Machine.execXnori rd rs1 uimm s
  | .ldhi rd uimm => Sys2Proof.Machine.execLdhi rd uimm s
  | .beq rs1 rs2 simm => Sys2Proof.Machine.execBeq rs1 rs2 simm s
  | .bne rs1 rs2 simm => Sys2Proof.Machine.execBne rs1 rs2 simm s
  | .bleu rs1 rs2 simm => Sys2Proof.Machine.execBleu rs1 rs2 simm s
  | .bltu rs1 rs2 simm => Sys2Proof.Machine.execBltu rs1 rs2 simm s
  | .bgeu rs1 rs2 simm => Sys2Proof.Machine.execBgeu rs1 rs2 simm s
  | .bgtu rs1 rs2 simm => Sys2Proof.Machine.execBgtu rs1 rs2 simm s
  | .j simm => Sys2Proof.Machine.execJ simm s
  | .jr rs => Sys2Proof.Machine.execJr rs s
  | .jal simm => Sys2Proof.Machine.execJal simm s
  | .ldw rd rs simm => Sys2Proof.Machine.execLdw rd rs simm s
  | .ldh rd rs simm => Sys2Proof.Machine.execLdh rd rs simm s
  | .ldhu rd rs simm => Sys2Proof.Machine.execLdhu rd rs simm s
  | .ldb rd rs simm => Sys2Proof.Machine.execLdb rd rs simm s
  | .ldbu rd rs simm => Sys2Proof.Machine.execLdbu rd rs simm s
  | .stw rd rs simm => Sys2Proof.Machine.execStw rd rs simm s
  | .sth rd rs simm => Sys2Proof.Machine.execSth rd rs simm s
  | .stb rd rs simm => Sys2Proof.Machine.execStb rd rs simm s

end Sys2Proof.Machine
end

