-- ==== Sys2Proof/Machine/Cpu.lean ====
section
/-!
DEFINITION. One step of the CPU (spec/70_reset_and_hazards.md R216), and which entries of the order of steps stand
before the CPU's next one.
-/

namespace Sys2Proof.Machine

/-- What the CPU does with a fetched word (R216 steps 2 to 5). -/
def State.runWord (s : State) (w : Word) : Result :=
  match decode s.params.ignoreMustBeZero w with
  | .instr i => exec i s
  | .unknownOpcode => .next (s.raise .unknownOpcode w)
  | .reservedEncoding => .refused .reservedEncoding

/-- One CPU step (R216). A halted machine has none (R173): it stops with the record of its halted state. -/
def State.cpuStep (s : State) : Result :=
  match s.halted with
  | some h => .fault (.halted h)
  | none =>
    match s.fetch s.pc with
    | .done w => s.runWord w
    | .raised c info => .next (s.raise c info)
    | .refused r => .refused r

/-- The order of steps from the CPU's next step on. -/
def fromCpu : List Turn → List Turn
  | [] => []
  | .cpu :: rest => .cpu :: rest
  | .key _ _ :: rest => fromCpu rest
  | .reset :: rest => fromCpu rest

end Sys2Proof.Machine
end

