-- ==== Sys2Proof/Machine/Step.lean ====
section
/-!
DEFINITION. One step of the whole machine: one step of the agent whose turn it is (spec/00_scope.md R14,
spec/60_exceptions.md R178, R190, spec/70_reset_and_hazards.md R211, R216).
-/

namespace Sys2Proof.Machine

/-- The next step. The first entry of `turns` says whose it is; with no entry left the CPU steps (log 11). -/
def step (s : State) : Host.Outcome State Fault Refusal :=
  match s.turns with
  | [] => s.cpuStep
  | .cpu :: rest => State.cpuStep { s with turns := rest }
  | .key c replace :: rest => .next (State.keyArrives { s with turns := rest } c replace)
  | .reset :: rest => .next (State.resetEvent { s with turns := rest })

/-- The state with an instruction placed where the CPU fetches next, which stands for the load of a program
from outside (MEM_INIT, D29; log 17): its four bytes at the pc, in the big-endian order of R42. For the very
next step to fetch it, the machine is not halted and the CPU has the next turn. -/
def State.withFetchWord (s : State) (nbits w : Nat) : State :=
  { s with
    mem := writeBytes s.mem s.pc.toNat (wordBytes (BitVec.ofNat 32 (w % 2 ^ nbits)))
    halted := none
    turns := fromCpu s.turns }

end Sys2Proof.Machine
end

