-- ==== Sys2Proof/WellFormed.lean ====
section
/-!
DEFINITION. What makes the parameters of a run meaningful (spec/20_memory.md R50, spec/10_state.md R26, R33).

An instruction term needs no check of its own: every operand is a bit vector of exactly the width of its
field (Syntax.lean), so every term of `Instr` is well-formed. What can be ill-formed in a machine word,
a must-be-zero field that is not zero (spec/30_encoding.md R87), is checked where words are read, in
Decode.lean.
-/

namespace Sys2Proof

/-- `base` and `size` are multiples of 4 and the region lies in the 32-bit address space (R40, R50). -/
def Region.wf (r : Region) : Bool :=
  r.base % 4 == 0 && r.size % 4 == 0 && decide (r.base + r.size ≤ 2 ^ 32)

/-- Two regions share no address (R50). -/
def Region.apart (r q : Region) : Bool :=
  decide (r.base + r.size ≤ q.base) || decide (q.base + q.size ≤ r.base)

/-- The address ranges of the display window and of the keyboard window, as regions, for the check that
no region of MEM_REGIONS overlaps them (R49, R50). -/
def peripheralWindows : List Region :=
  [ { base := 0x30100000, size := 0x3C00, kind := .ram },
    { base := 0x30200000, size := 8, kind := .ram } ]

/-- No region overlaps a later one of the list. -/
def regionsApart : List Region → Bool
  | [] => true
  | r :: rest => rest.all (fun q => r.apart q) && regionsApart rest

/-- The parameters are as R26, R33 and R50 require: RESET_PC is a multiple of 4, every region is
well-formed, and no region overlaps another region or a peripheral window. -/
def Params.wf (p : Params) : Bool :=
  p.resetPc.toNat % 4 == 0
    && p.regions.all (fun r => r.wf)
    && regionsApart p.regions
    && p.regions.all (fun r => peripheralWindows.all (fun q => r.apart q))

end Sys2Proof
end

