-- ==== Sys2Proof/Safety.lean ====
section
/-!
DEFINITION. What counts as a good state and a finished run, in the terms claims use (spec/70_reset_and_hazards.md
R217, spec/60_exceptions.md R173): the halted state is never a final state.
-/

namespace Sys2Proof.Machine

/-- The CPU can step: the machine is not in the halted state (R173). -/
def State.running (s : State) : Bool := s.halted.isNone

/-- A run has ended: the pc is END_PC and the machine is not halted (R217, log 30). -/
def State.ended (endPc : Word) (s : State) : Bool := s.pc == endPc && s.running

/-- A run from `s` ends within `k` steps (R217). A fault, a refusal and the halted state are no end. -/
def endsWithin (endPc : Word) : Nat → State → Bool
  | 0, s => s.ended endPc
  | k + 1, s =>
    s.ended endPc ||
      match step s with
      | .next t => endsWithin endPc k t
      | .fault _ => false
      | .refused _ => false

/-- The display holds words in cells only, in canonical form (R31, R186). -/
def Display.wf (d : Display) : Bool := rising d && d.all (fun c => isCell c.1)

/-- The record of the halted state says what is so: its pc is the machine's pc, and its cause holds of its
info (R172, R175). -/
def State.haltTrue (s : State) : Bool :=
  match s.halted with
  | none => true
  | some h =>
    h.atPc == s.pc &&
      match h.cause with
      | .unknownOpcode => decode s.params.ignoreMustBeZero h.info == .unknownOpcode
      | .misalignedFetch => h.info == s.pc && !aligned .word s.pc
      | .misalignedData => !aligned .word h.info
      | .unmappedAccess => !(s.inRegion h.info.toNat 4 && !inPeripheral h.info)
      | .romWrite => s.meetsRom h.info.toNat 4

/-- What holds of the machine at reset and after every step: the parameters are as R50 requires, memory is in
canonical form and lists only addresses of a region, the display is in canonical form and lists only
cells, register 0 holds zero, and the record of the halted state is true. -/
def State.wf (s : State) : Bool :=
  s.params.wf
    && Memory.wf s.mem
    && s.mem.all (fun c => s.inRegion c.1 1)
    && Display.wf s.disp
    && s.regs[0] == 0#32
    && s.haltTrue

end Sys2Proof.Machine
end

