-- ==== Sys2Proof/Certificates/Slice0/Obligations.lean ====
section
/-!
DEFINITION. The statements about ECO32e that the provers settle. Each docstring names the rules of spec/ it
formalises; where a statement rests on a choice of the model it says so and names the log entry.
-/

namespace Sys2Proof.Claims

open Sys2Proof.Machine

/-- Everything but registers, pc and memory is as before: the halted state, both peripherals, the parameters, the
order of steps and the model's own counters. -/
def SameElsewhere (s t : State) : Prop :=
  t.halted = s.halted ∧ t.kbdReady = s.kbdReady ∧ t.kbdChar = s.kbdChar ∧ t.disp = s.disp ∧
    t.params = s.params ∧ t.turns = s.turns ∧ t.free = s.free ∧ t.epoch = s.epoch

/-- Every byte of memory reads as before. -/
def SameMemory (s t : State) : Prop := ∀ a : Nat, t.byteAt a = s.byteAt a

/-- Every register reads as before. -/
def SameRegisters (s t : State) : Prop := ∀ r : RegNum, t.reg r = s.reg r

/-- Register `rd` holds `v` afterwards, every other register is as before, and register 0 discards the
write (R21). -/
def WritesRegister (s t : State) (rd : RegNum) (v : Word) : Prop :=
  ∀ r : RegNum, t.reg r = if r = rd ∧ r ≠ 0#5 then v else s.reg r

/-- What an instruction that computes `v` into `rd` leaves: the register written, the pc advanced by 4 (R25),
all else as before. -/
def Computes (s t : State) (rd : RegNum) (v : Word) : Prop :=
  WritesRegister s t rd v ∧ t.pc = s.pc + 4#32 ∧ SameMemory s t ∧ SameElsewhere s t

/-- The state with nothing changed but the record of the halted state (R175). -/
def haltedWith (s : State) (c : Cause) (info : Word) : State :=
  { s with halted := some { cause := c, atPc := s.pc, info := info } }

/-- The CPU takes the next step: the machine is running and no other agent's turn comes first. -/
def CpuTurn (s : State) : Prop :=
  s.halted = none ∧ (s.turns = [] ∨ s.turns.head? = some .cpu)

/-- The state with the CPU's turn used up. -/
def turnTaken (s : State) : State := { s with turns := s.turns.tail }

/-- The four bytes from `a`, the first the most significant (R42). -/
def wordAt (s : State) (a : Nat) : Word :=
  s.byteAt a ++ s.byteAt (a + 1) ++ s.byteAt (a + 2) ++ s.byteAt (a + 3)

/-- The two bytes from `a`, the first the more significant (R42). -/
def halfAt (s : State) (a : Nat) : Half := s.byteAt a ++ s.byteAt (a + 1)

/-- All `n` bytes from `a` lie in one region of MEM_REGIONS of the kinds `p` accepts (R50). -/
def InOneRegion (s : State) (p : RegionKind → Prop) (a n : Nat) : Prop :=
  ∃ r ∈ s.params.regions, p r.kind ∧ r.base ≤ a ∧ a + n ≤ r.base + r.size

/-- All `n` bytes from `a` lie in one RAM or ROM region. -/
def Mapped (s : State) (a n : Nat) : Prop := InOneRegion s (fun _ => True) a n

/-- All `n` bytes from `a` lie in one RAM region. -/
def InRam (s : State) (a n : Nat) : Prop := InOneRegion s (fun k => k = .ram) a n

/-- One of the `n` bytes from `a` lies in a ROM region. -/
def TouchesRom (s : State) (a n : Nat) : Prop :=
  ∃ r ∈ s.params.regions, r.kind = .rom ∧ ∃ x, a ≤ x ∧ x < a + n ∧ r.base ≤ x ∧ x < r.base + r.size

/-- An address of the display window, 0x30100000 to 0x30103BFF (R49). -/
def InDisplayWindow (a : Nat) : Prop := 0x30100000 ≤ a ∧ a ≤ 0x30103BFF

/-- An address of the keyboard window, 0x30200000 to 0x30200007 (R49). -/
def InKeyboardWindow (a : Nat) : Prop := 0x30200000 ≤ a ∧ a ≤ 0x30200007

/-- An address of either peripheral window. -/
def InWindow (a : Nat) : Prop := InDisplayWindow a ∨ InKeyboardWindow a

/-- `x[rs] + sext_32(simm)` modulo 2^32 (R150). -/
def ea (s : State) (rs : RegNum) (simm : Half) : Word := s.reg rs + simm.signExtend 32

/-- One of the 34 opcodes with no entry in the opcode map (R86). -/
def UnknownOp (op : Nat) : Prop :=
  (0x04 ≤ op ∧ op ≤ 0x0F) ∨ (0x18 ≤ op ∧ op ≤ 0x1E) ∨ op = 0x22 ∨ op = 0x24 ∨ op = 0x26 ∨ op = 0x28 ∨
    (0x2D ≤ op ∧ op ≤ 0x2F) ∨ (0x38 ≤ op ∧ op ≤ 0x3F)

/-- The register an instruction writes, if any (the table of spec/10_state.md section 2). -/
def destination : Instr → Option RegNum
  | .add rd _ _ | .sub rd _ _ | .and rd _ _ | .or rd _ _ | .xor rd _ _ | .xnor rd _ _ => some rd
  | .addi rd _ _ | .subi rd _ _ | .andi rd _ _ | .ori rd _ _ | .xori rd _ _ | .xnori rd _ _ => some rd
  | .ldhi rd _ => some rd
  | .beq _ _ _ | .bne _ _ _ | .bleu _ _ _ | .bltu _ _ _ | .bgeu _ _ _ | .bgtu _ _ _ => none
  | .j _ | .jr _ => none
  | .jal _ => some 31#5
  | .ldw rd _ _ | .ldh rd _ _ | .ldhu rd _ _ | .ldb rd _ _ | .ldbu rd _ _ => some rd
  | .stw _ _ _ | .sth _ _ _ | .stb _ _ _ => none

/-- The five loads, with the width and the address they read. -/
def loads (s : State) : Instr → Option (Nat × Word)
  | .ldw _ rs k => some (4, ea s rs k)
  | .ldh _ rs k | .ldhu _ rs k => some (2, ea s rs k)
  | .ldb _ rs k | .ldbu _ rs k => some (1, ea s rs k)
  | _ => none

/-- The three stores, with the width and the address they write. -/
def stores (s : State) : Instr → Option (Nat × Word)
  | .stw _ rs k => some (4, ea s rs k)
  | .sth _ rs k => some (2, ea s rs k)
  | .stb _ rs k => some (1, ea s rs k)
  | _ => none

/-- The loads and stores, with the width and the address they access. -/
def accesses (s : State) (i : Instr) : Option (Nat × Word) :=
  match loads s i with
  | some x => some x
  | none => stores s i

/-- A branch with a non-zero offset goes to its target. -/
def Takes (i : Instr) (simm : Half) (s : State) : Prop :=
  exec i s = .next { s with pc := s.pc + 4#32 + (simm.signExtend 32 <<< 2) }

/-- What a store of the bytes `bs` at `a` leaves: those bytes, every other byte, every register and all else as
before, the pc advanced by 4. -/
def Stores (s t : State) (a : Nat) (bs : List Byte) : Prop :=
  (∀ x : Nat, t.byteAt x = if a ≤ x ∧ x < a + bs.length then bs.getD (x - a) 0#8 else s.byteAt x) ∧
    SameRegisters s t ∧ t.pc = s.pc + 4#32 ∧ SameElsewhere s t

end Sys2Proof.Claims

open Sys2Proof Sys2Proof.Machine Sys2Proof.Claims

/-! ### Encoding -/

/-- R72 to R79, R85: decoding the coding of an instruction gives the instruction, whatever its operands and
whether or not the must-be-zero switch is on. -/
def Obligations.DecodeOfEncodeIsTheInstruction : Prop :=
  ∀ (ignorePad : Bool) (i : Instr), decode ignorePad (encode i) = .instr i

/-- R72 to R78, R85, R87: with the switch off, a word that decodes to an instruction is that instruction's only
coding, so no bit of an accepted word is dropped. That a non-zero must-be-zero field is not accepted is the
spec's decision D9 (log 15). -/
def Obligations.EncodeOfDecodeIsTheWord : Prop :=
  ∀ (w : Word) (i : Instr), decode false w = .instr i → encode i = w

/-- R86: which words have an unknown opcode. -/
def Obligations.UnknownOpcodesAreThe34 : Prop :=
  ∀ (ignorePad : Bool) (w : Word), decode ignorePad w = .unknownOpcode ↔ UnknownOp (w.toNat / 2 ^ 26)

/-- R87: which words are reserved encodings, and that with the switch on none is. The treatment of these words
is the spec's decision D9 (log 15). -/
def Obligations.ReservedEncodingsAreNonzeroPads : Prop :=
  ∀ w : Word,
    (decode false w = .reservedEncoding ↔
      (w.toNat / 2 ^ 26 ∈ [0x00, 0x02, 0x10, 0x12, 0x14, 0x16] ∧ w.toNat % 2 ^ 11 ≠ 0) ∨
      (w.toNat / 2 ^ 26 = 0x1F ∧ w.toNat / 2 ^ 21 % 2 ^ 5 ≠ 0) ∨
      (w.toNat / 2 ^ 26 = 0x2B ∧ w.toNat % 2 ^ 21 ≠ 0)) ∧
    decode true w ≠ .reservedEncoding

/-- spec/95_test_vectors.md section 2.1: words written out bit by bit from the codings, one of each format. -/
def Obligations.SampleWordsDecode : Prop :=
  decode false 0b00000000010000110000100000000000#32 = .instr (.add 1 2 3) ∧
  decode false 0b00000100010000010000010011010010#32 = .instr (.addi 1 2 1234) ∧
  decode false 0b01000100010000010000010011010010#32 = .instr (.andi 1 2 1234) ∧
  decode false 0b01111100000000010001001000110100#32 = .instr (.ldhi 1 0x1234) ∧
  decode false 0b10000000001000100000000000000011#32 = .instr (.beq 1 2 3) ∧
  decode false 0b10101000000000000000000000000011#32 = .instr (.j 3) ∧
  decode false 0b10101111111000000000000000000000#32 = .instr (.jr 31) ∧
  decode false 0b11000000010000010000010011010010#32 = .instr (.ldw 1 2 1234) ∧
  decode false 0b11010100010000010000010011010010#32 = .instr (.stw 1 2 1234)

/-! ### One step -/

/-- R216: when the bytes at the pc are mapped and decode to an instruction, the CPU's step is the meaning of
that instruction, at the state with the CPU's turn used up (the turn is the model's, log 11). The byte order of
the fetched word is the spec's decision D2 (log 2). -/
def Obligations.StepRunsTheDecodedInstruction : Prop :=
  ∀ (s : State) (i : Instr), CpuTurn s → s.pc.toNat % 4 = 0 → Mapped s s.pc.toNat 4 →
    ¬InWindow s.pc.toNat →
    decode s.params.ignoreMustBeZero (wordAt s s.pc.toNat) = .instr i →
    step s = exec i (turnTaken s)

/-- R172: a fetched word with an unknown opcode puts the machine in the halted state with the record
(UnknownOpcode, pc, word), and nothing else changes but the model's turn (log 11). That an unknown opcode halts
the machine is the spec's decision D10 (log 12). -/
def Obligations.UnknownOpcodeHaltsTheMachine : Prop :=
  ∀ s : State, CpuTurn s → s.pc.toNat % 4 = 0 → Mapped s s.pc.toNat 4 → ¬InWindow s.pc.toNat →
    UnknownOp ((wordAt s s.pc.toNat).toNat / 2 ^ 26) →
    step s = .next (haltedWith (turnTaken s) .unknownOpcode (wordAt s s.pc.toNat))

/-- R87, R177: a fetched reserved encoding is refused. This is the spec's decision D9 (logs 13 and 15). -/
def Obligations.ReservedEncodingIsRefused : Prop :=
  ∀ s : State, CpuTurn s → s.pc.toNat % 4 = 0 → Mapped s s.pc.toNat 4 → ¬InWindow s.pc.toNat →
    decode s.params.ignoreMustBeZero (wordAt s s.pc.toNat) = .reservedEncoding →
    step s = .refused .reservedEncoding

/-- R43: a fetch at an address that is not a multiple of 4 is the model fault MisalignedFetch(pc). This is the
spec's decision D4 (log 12). -/
def Obligations.MisalignedFetchHaltsTheMachine : Prop :=
  ∀ s : State, CpuTurn s → s.pc.toNat % 4 ≠ 0 →
    step s = .next (haltedWith (turnTaken s) .misalignedFetch s.pc)

/-- R54, under the condition R50 puts on MEM_REGIONS (`Params.wf`, an invariant: StepKeepsWellFormed): Fetch in
its order, a peripheral window being no memory. These are the spec's decisions D2, D4, D8 and D20 (logs 2 and
12). -/
def Obligations.FetchFollowsItsOrder : Prop :=
  ∀ (s : State) (a : Word), s.params.wf = true →
    (a.toNat % 4 ≠ 0 → s.fetch a = .raised .misalignedFetch a) ∧
    (a.toNat % 4 = 0 → Mapped s a.toNat 4 → s.fetch a = .done (wordAt s a.toNat)) ∧
    (a.toNat % 4 = 0 → ¬Mapped s a.toNat 4 → s.fetch a = .raised .unmappedAccess a) ∧
    (a.toNat % 4 = 0 → InWindow a.toNat → s.fetch a = .raised .unmappedAccess a)

/-- R173: a CPU turn of a halted machine is a fault that reports the record; no step but a reset changes that
record; the keyboard may still deliver. That the missing step is reported as a fault is the model's choice (log
12). -/
def Obligations.HaltedMachineHasNoCpuStep : Prop :=
  ∀ (s : State) (h : Halt), s.halted = some h →
    ((s.turns = [] ∨ s.turns.head? = some .cpu) → step s = .fault (.halted h)) ∧
    (∀ t : State, step s = .next t → t.halted = some h ∨ (s.turns.head? = some .reset ∧ t.halted = none)) ∧
    (∀ (c : Byte) (replace : Bool), s.turns.head? = some (.key c replace) → ∃ t, step s = .next t)

/-- R176: a CPU step that ends in the halted state has changed nothing but the record (and used up the model's
turn, log 11), and the record names the pc of the instruction. Precision is the spec's decision D10 (log 12). -/
def Obligations.RaiseIsPrecise : Prop :=
  ∀ (s t : State) (h : Halt), CpuTurn s → step s = .next t → t.halted = some h →
    h.atPc = s.pc ∧ t = { turnTaken s with halted := some h }

/-- R190: the keyboard agent's step, halted or not: with no character pending the new one is taken; with one
pending kbd_ready stays 1 and the character is kept or replaced, as the schedule says (log 16). Nothing else
changes. Arrival and overrun are the spec's decision D16. -/
def Obligations.KeyboardArrivalIsASeparateStep : Prop :=
  ∀ (s : State) (c : Byte) (replace : Bool) (rest : List Turn), s.turns = .key c replace :: rest →
    (s.kbdReady = false →
      step s = .next { s with turns := rest, kbdReady := true, kbdChar := c }) ∧
    (s.kbdReady = true → replace = true →
      step s = .next { s with turns := rest, kbdChar := c }) ∧
    (s.kbdReady = true → replace = false →
      step s = .next { s with turns := rest })

/-- R33, R211: what a reset event leaves that the spec does state: not halted, the pc at RESET_PC, register 0
zero, the parameters, and every byte the image or a store gave a ROM address. The values the spec leaves
unspecified are free values of the model (log 14), of which this says nothing. These are the spec's decisions
D1, D6 and D7. -/
def Obligations.ResetEventLeaves : Prop :=
  ∀ (s : State) (rest : List Turn), s.turns = .reset :: rest →
    ∃ t, step s = .next t ∧ t.halted = none ∧ t.pc = s.params.resetPc ∧ t.reg 0#5 = 0#32 ∧
      t.params = s.params ∧ t.turns = rest ∧
      ∀ (r : Region) (a : Nat) (b : Byte), r ∈ s.params.regions → r.kind = .rom → r.base ≤ a →
        a < r.base + r.size → lookupKey s.mem a = some b → t.byteAt a = b

/-- R34: no step changes the parameters of the run; each step uses up at most the first entry of the schedule.
That they are parameters is the spec's decisions D6 and D8 (log 22); the schedule is the model's (log 11). -/
def Obligations.StepKeepsTheParameters : Prop :=
  ∀ s t : State, step s = .next t → t.params = s.params ∧ t.turns = s.turns.tail

/-! ### Invariants -/

/-- The invariant of the model, kept by every step: the parameters are as R50 requires, memory is in canonical
form and lists only mapped addresses, the display is in canonical form and lists only cells (R31, R186),
register 0 holds zero (R21), and the record of the halted state is true (R172, R175). It rests on the spec's
decisions D1, D3, D4, D8 and D28 and on the model's form of memory (logs 1, 6 and 12). -/
def Obligations.StepKeepsWellFormed : Prop :=
  ∀ s t : State, s.wf = true → step s = .next t → t.wf = true

/-- The invariant holds right after reset (with the reset values of logs 3, 4, 5 and 7). -/
def Obligations.ResetIsWellFormed : Prop := State.reset.wf = true

/-- R33: what the spec states of the machine after reset, for every choice of the parameters, the image and the
schedule. These are the spec's decisions D1, D6 and D29 (logs 1, 4 and 17). -/
def Obligations.LaunchStateIsReset : Prop :=
  ∀ (p : Params) (image : Memory) (turns : List Turn),
    (State.launch p image turns).halted = none ∧ (State.launch p image turns).pc = p.resetPc ∧
    (State.launch p image turns).reg 0#5 = 0#32 ∧
    (∀ a b, lookupKey image a = some b → (State.launch p image turns).byteAt a = b) ∧
    State.reset.pc.toNat % 4 = 0

/-- R26: with the pc a multiple of 4, no instruction but JR can leave it otherwise; JR itself always completes
with the whole register, and the fetch that follows it is MisalignedFetch when that value is not a multiple of
4. The halt is the spec's decision D4 (log 12), the wrap of the pc its decision D5 (log 19). -/
def Obligations.OnlyJrMisalignsThePc : Prop :=
  (∀ (s t : State) (i : Instr), s.pc.toNat % 4 = 0 → (∀ rs, i ≠ .jr rs) → exec i s = .next t →
    t.pc.toNat % 4 = 0) ∧
  (∀ (s : State) (rs : RegNum), ∃ t, exec (.jr rs) s = .next t ∧ t.pc = s.reg rs ∧
    (CpuTurn s → (s.reg rs).toNat % 4 ≠ 0 →
      step t = .next (haltedWith (turnTaken t) .misalignedFetch (s.reg rs))))

/-! ### Whole-machine rules -/

/-- R21: register 0 reads as zero in every state, a write to it changes nothing, and an instruction that names
it as its destination does everything else it does (a word load from the keyboard data register still clears
kbd_ready). These are the spec's decisions D1 and D19, from knowledge of the family (logs 1 and 21). -/
def Obligations.RegisterZeroIsHardwired : Prop :=
  (∀ s : State, s.reg 0#5 = 0#32) ∧ (∀ (s : State) (v : Word), s.setReg 0#5 v = s) ∧
  (∀ (s : State) (rs : RegNum) (k : Half), ea s rs k = 0x30200004#32 →
    ∃ t, exec (.ldw 0#5 rs k) s = .next t ∧ t.kbdReady = false ∧ SameRegisters s t ∧ t.pc = s.pc + 4#32)

/-- R22 and its table: an instruction changes no register but its destination; a store, a branch, J and JR change
none; JAL changes register 31 only. -/
def Obligations.OnlyTheDestinationRegisterChanges : Prop :=
  ∀ (s t : State) (i : Instr) (r : RegNum), exec i s = .next t → t.reg r ≠ s.reg r → destination i = some r

/-- R41: an instruction that is no store leaves every byte of memory and the display as they were; an instruction
that is neither a load nor a store leaves the peripherals untouched too. -/
def Obligations.OnlyLoadsAndStoresReachMemory : Prop :=
  ∀ (s t : State) (i : Instr), exec i s = .next t →
    (stores s i = none → SameMemory s t ∧ t.mem = s.mem ∧ t.disp = s.disp) ∧
    (accesses s i = none → SameElsewhere s t)

/-- R47, R171: the one thing an instruction can do to the keyboard is to clear kbd_ready by a word load from
0x30200004. -/
def Obligations.OnlyTheDataRegisterReadHasASideEffect : Prop :=
  ∀ (s t : State) (i : Instr), exec i s = .next t →
    t.kbdChar = s.kbdChar ∧
    (t.kbdReady ≠ s.kbdReady →
      t.kbdReady = false ∧ ∃ rd rs k, i = .ldw rd rs k ∧ ea s rs k = 0x30200004#32)

/-- R170: no instruction but a load or store can raise anything: each of the other 22 answers a next state with the
halted state as it was. -/
def Obligations.ComputingInstructionsNeverRaise : Prop :=
  ∀ (s : State) (i : Instr), accesses s i = none → ∃ t, exec i s = .next t ∧ t.halted = s.halted

/-- R177: an instruction is refused only as a load or store whose address lies in a peripheral window, and an
instruction never ends in a fault. The refusals are the spec's decisions D13, D14 and D15 (log 13); that model
faults are next states is log 12. -/
def Obligations.OnlyWindowAccessesAreRefused : Prop :=
  ∀ (s : State) (i : Instr),
    (∀ f, exec i s ≠ .fault f) ∧
    (∀ r, exec i s = .refused r →
      ∃ n a, accesses s i = some (n, a) ∧ InWindow a.toNat ∧ a.toNat % n = 0 ∧
        ((n ≠ 4 ∧ r = .subWordPeripheralAccess) ∨ (n = 4 ∧ InDisplayWindow a.toNat ∧ r = .displayAccess) ∨
          (n = 4 ∧ InKeyboardWindow a.toNat ∧ r = .keyboardAccess)))

/-- R31, R188: a program cannot read the display: two machines that differ in the display only take the same
steps and still differ in the display only. That reads of the display window have no meaning is the spec's
decision D14 (log 13). -/
def Obligations.TheDisplayCannotBeReadBack : Prop :=
  ∀ (s : State) (d : Display),
    match step s with
    | .next t => ∃ d', step { s with disp := d } = .next { t with disp := d' }
    | .fault f => step { s with disp := d } = .fault f
    | .refused r => step { s with disp := d } = .refused r

/-! ### Arithmetic and logic -/

/-- R100 to R103: the coding and the effect of ADD, ADDI, SUB, SUBI: 32-bit arithmetic modulo 2^32, immediates
sign-extended. That register 0 as rd discards the result is the spec's decision D1 (log 1), that the pc wraps
its decision D5 (log 19). -/
def Obligations.ArithmeticInstructionsCompute : Prop :=
  ∀ (s : State) (rd rs1 rs2 : RegNum) (k : Half),
    (encode (.add rd rs1 rs2) = 0x00#6 ++ rs1 ++ rs2 ++ rd ++ 0#11 ∧
      ∃ t, exec (.add rd rs1 rs2) s = .next t ∧ Computes s t rd (s.reg rs1 + s.reg rs2)) ∧
    (encode (.addi rd rs1 k) = 0x01#6 ++ rs1 ++ rd ++ k ∧
      ∃ t, exec (.addi rd rs1 k) s = .next t ∧ Computes s t rd (s.reg rs1 + k.signExtend 32)) ∧
    (encode (.sub rd rs1 rs2) = 0x02#6 ++ rs1 ++ rs2 ++ rd ++ 0#11 ∧
      ∃ t, exec (.sub rd rs1 rs2) s = .next t ∧ Computes s t rd (s.reg rs1 + ~~~(s.reg rs2) + 1#32)) ∧
    (encode (.subi rd rs1 k) = 0x03#6 ++ rs1 ++ rd ++ k ∧
      ∃ t, exec (.subi rd rs1 k) s = .next t ∧ Computes s t rd (s.reg rs1 - k.signExtend 32))

/-- R110, R112, R114, R116: the coding and the effect of AND, OR, XOR, XNOR, the last two as the source's
remarks define them. Register 0 as rd discards the result: the spec's decision D1 (log 1); the pc wraps: D5 (log
19). -/
def Obligations.LogicRegisterFormsCompute : Prop :=
  ∀ (s : State) (rd rs1 rs2 : RegNum),
    (encode (.and rd rs1 rs2) = 0x10#6 ++ rs1 ++ rs2 ++ rd ++ 0#11 ∧
      ∃ t, exec (.and rd rs1 rs2) s = .next t ∧ Computes s t rd (s.reg rs1 &&& s.reg rs2)) ∧
    (encode (.or rd rs1 rs2) = 0x12#6 ++ rs1 ++ rs2 ++ rd ++ 0#11 ∧
      ∃ t, exec (.or rd rs1 rs2) s = .next t ∧ Computes s t rd (s.reg rs1 ||| s.reg rs2)) ∧
    (encode (.xor rd rs1 rs2) = 0x14#6 ++ rs1 ++ rs2 ++ rd ++ 0#11 ∧
      ∃ t, exec (.xor rd rs1 rs2) s = .next t ∧
        Computes s t rd ((s.reg rs1 &&& ~~~(s.reg rs2)) ||| (~~~(s.reg rs1) &&& s.reg rs2))) ∧
    (encode (.xnor rd rs1 rs2) = 0x16#6 ++ rs1 ++ rs2 ++ rd ++ 0#11 ∧
      ∃ t, exec (.xnor rd rs1 rs2) s = .next t ∧
        Computes s t rd ((s.reg rs1 &&& s.reg rs2) ||| (~~~(s.reg rs1) &&& ~~~(s.reg rs2))))

/-- R111, R113, R115, R117: the coding and the effect of ANDI, ORI, XORI, XNORI, halfword by halfword: the
constant is zero-extended, so ANDI clears bits 31:16, ORI and XORI pass them through, XNORI complements them.
Register 0 as rd discards the result: the spec's decision D1 (log 1); the pc wraps: D5 (log 19). -/
def Obligations.LogicImmediateFormsCompute : Prop :=
  ∀ (s : State) (rd rs1 : RegNum) (u : Half),
    (encode (.andi rd rs1 u) = 0x11#6 ++ rs1 ++ rd ++ u ∧
      ∃ t, exec (.andi rd rs1 u) s = .next t ∧
        Computes s t rd (0#16 ++ ((s.reg rs1).extractLsb' 0 16 &&& u))) ∧
    (encode (.ori rd rs1 u) = 0x13#6 ++ rs1 ++ rd ++ u ∧
      ∃ t, exec (.ori rd rs1 u) s = .next t ∧
        Computes s t rd ((s.reg rs1).extractLsb' 16 16 ++ ((s.reg rs1).extractLsb' 0 16 ||| u))) ∧
    (encode (.xori rd rs1 u) = 0x15#6 ++ rs1 ++ rd ++ u ∧
      ∃ t, exec (.xori rd rs1 u) s = .next t ∧
        Computes s t rd ((s.reg rs1).extractLsb' 16 16 ++ ((s.reg rs1).extractLsb' 0 16 ^^^ u))) ∧
    (encode (.xnori rd rs1 u) = 0x17#6 ++ rs1 ++ rd ++ u ∧
      ∃ t, exec (.xnori rd rs1 u) s = .next t ∧
        Computes s t rd
          (~~~((s.reg rs1).extractLsb' 16 16) ++ ~~~((s.reg rs1).extractLsb' 0 16 ^^^ u)))

/-- R118: the coding and the effect of LDHI: the constant in bits 31:16, zeros in bits 15:0. Register 0 as rd
discards the result: the spec's decision D1 (log 1); the pc wraps: D5 (log 19). -/
def Obligations.LdhiLoadsTheHighHalf : Prop :=
  ∀ (s : State) (rd : RegNum) (u : Half),
    encode (.ldhi rd u) = 0x1F#6 ++ 0#5 ++ rd ++ u ∧
      ∃ t, exec (.ldhi rd u) s = .next t ∧ Computes s t rd (u ++ 0#16)

/-- R119: LDHI then ORI loads any 32-bit constant into any register but register 0, from any state. -/
def Obligations.LdhiThenOriLoadsAnyConstant : Prop :=
  ∀ (s : State) (rd : RegNum) (c : Word), rd ≠ 0#5 →
    ∃ t u, exec (.ldhi rd (c.extractLsb' 16 16)) s = .next t ∧
      exec (.ori rd rd (c.extractLsb' 0 16)) t = .next u ∧ WritesRegister s u rd c ∧
      u.pc = s.pc + 8#32 ∧ SameMemory s u ∧ SameElsewhere s u

/-! ### Branches and jumps -/

/-- R130 to R136: the coding and the effect of the six branches; they compare all 32 bits, the four orders
unsigned, and change the pc and nothing else. That the pc wraps modulo 2^32 is the spec's decision D5 (log 19). -/
def Obligations.BranchesGoToTheirTargets : Prop :=
  ∀ (s : State) (a b : RegNum) (k : Half),
    (encode (.beq a b k) = 0x20#6 ++ a ++ b ++ k ∧
      exec (.beq a b k) s = .next { s with
        pc := if s.reg a = s.reg b then s.pc + 4#32 + (k.signExtend 32 <<< 2) else s.pc + 4#32 }) ∧
    (encode (.bne a b k) = 0x21#6 ++ a ++ b ++ k ∧
      exec (.bne a b k) s = .next { s with
        pc := if s.reg a ≠ s.reg b then s.pc + 4#32 + (k.signExtend 32 <<< 2) else s.pc + 4#32 }) ∧
    (encode (.bleu a b k) = 0x23#6 ++ a ++ b ++ k ∧
      exec (.bleu a b k) s = .next { s with
        pc := if (s.reg a).toNat ≤ (s.reg b).toNat then s.pc + 4#32 + (k.signExtend 32 <<< 2)
              else s.pc + 4#32 }) ∧
    (encode (.bltu a b k) = 0x25#6 ++ a ++ b ++ k ∧
      exec (.bltu a b k) s = .next { s with
        pc := if (s.reg a).toNat < (s.reg b).toNat then s.pc + 4#32 + (k.signExtend 32 <<< 2)
              else s.pc + 4#32 }) ∧
    (encode (.bgeu a b k) = 0x27#6 ++ a ++ b ++ k ∧
      exec (.bgeu a b k) s = .next { s with
        pc := if (s.reg a).toNat ≥ (s.reg b).toNat then s.pc + 4#32 + (k.signExtend 32 <<< 2)
              else s.pc + 4#32 }) ∧
    (encode (.bgtu a b k) = 0x29#6 ++ a ++ b ++ k ∧
      exec (.bgtu a b k) s = .next { s with
        pc := if (s.reg a).toNat > (s.reg b).toNat then s.pc + 4#32 + (k.signExtend 32 <<< 2)
              else s.pc + 4#32 })

/-- R138: on the same operands exactly one of BLTU, BEQ, BGTU goes to its target; BNE does when BEQ does not, BLEU
when BLTU or BEQ does, BGEU when BGTU or BEQ does. (The field is not zero, so that taken and not taken differ.) -/
def Obligations.BranchConditionsAreConsistent : Prop :=
  ∀ (s : State) (a b : RegNum) (k : Half), k ≠ 0#16 →
    (Takes (.bltu a b k) k s ∨ Takes (.beq a b k) k s ∨ Takes (.bgtu a b k) k s) ∧
    ¬(Takes (.bltu a b k) k s ∧ Takes (.beq a b k) k s) ∧
    ¬(Takes (.beq a b k) k s ∧ Takes (.bgtu a b k) k s) ∧
    ¬(Takes (.bltu a b k) k s ∧ Takes (.bgtu a b k) k s) ∧
    (Takes (.bne a b k) k s ↔ ¬Takes (.beq a b k) k s) ∧
    (Takes (.bleu a b k) k s ↔ Takes (.bltu a b k) k s ∨ Takes (.beq a b k) k s) ∧
    (Takes (.bgeu a b k) k s ↔ Takes (.bgtu a b k) k s ∨ Takes (.beq a b k) k s)

/-- R82, R83: the offsets of branches and jumps are four times the signed field, without loss, and equal the
sign-extended field with two zeros appended; targets are relative to the pc plus 4, modulo 2^32. The wrap is the
spec's decision D5 (log 19). -/
def Obligations.OffsetsAreFourTimesTheField : Prop :=
  (∀ k : Half, branchOffset k = (k ++ 0#2).signExtend 32 ∧ (branchOffset k).toInt = 4 * k.toInt ∧
    -131072 ≤ (branchOffset k).toInt ∧ (branchOffset k).toInt ≤ 131068) ∧
  (∀ k : JumpField, jumpOffset k = (k ++ 0#2).signExtend 32 ∧ (jumpOffset k).toInt = 4 * k.toInt ∧
    -134217728 ≤ (jumpOffset k).toInt ∧ (jumpOffset k).toInt ≤ 134217724) ∧
  (∀ (pc : Word) (k : Half), branchTarget pc k = pc + 4#32 + branchOffset k) ∧
  (∀ (pc : Word) (k : JumpField), jumpTarget pc k = pc + 4#32 + jumpOffset k)

/-- R140, R141, R142: the coding and the effect of J, JR and JAL. JAL computes the link value and the target
from the pc of the JAL itself. That the pc wraps modulo 2^32 is the spec's decision D5 (log 19). -/
def Obligations.JumpsGoToTheirTargets : Prop :=
  ∀ (s : State) (k : JumpField) (rs : RegNum),
    (encode (.j k) = 0x2A#6 ++ k ∧
      exec (.j k) s = .next { s with pc := s.pc + 4#32 + (k.signExtend 32 <<< 2) }) ∧
    (encode (.jr rs) = 0x2B#6 ++ rs ++ 0#5 ++ 0#16 ∧
      exec (.jr rs) s = .next { s with pc := s.reg rs }) ∧
    (encode (.jal k) = 0x2C#6 ++ k ∧
      ∃ t, exec (.jal k) s = .next t ∧ WritesRegister s t 31#5 (s.pc + 4#32) ∧
        t.pc = s.pc + 4#32 + (k.signExtend 32 <<< 2) ∧ SameMemory s t ∧ SameElsewhere s t)

/-- R88, R140, R217: the all-zero word changes nothing but the pc, and J with the field of all ones (the word
0xABFFFFFF) leaves the whole machine as it is. Register 0 is the spec's decision D1 (log 1). -/
def Obligations.FillerAndSelfJump : Prop :=
  decode false 0x00000000#32 = .instr (.add 0 0 0) ∧ decode false 0xABFFFFFF#32 = .instr (.j 0x3FFFFFF) ∧
  ∀ s : State, exec (.add 0 0 0) s = .next { s with pc := s.pc + 4#32 } ∧ exec (.j 0x3FFFFFF) s = .next s

/-! ### Loads and stores -/

/-- R151 to R155: the coding of the five loads, and their effect on mapped memory: big-endian, LDH and LDB sign-
extended, LDHU and LDBU zero-extended. Register 0, byte order, address wrap and regions are the spec's decisions
D1, D2, D5 and D8 (logs 1, 2, 19 and 5). -/
def Obligations.LoadsReadMemory : Prop :=
  ∀ (s : State) (rd rs : RegNum) (k : Half),
    (encode (.ldw rd rs k) = 0x30#6 ++ rs ++ rd ++ k ∧ encode (.ldh rd rs k) = 0x31#6 ++ rs ++ rd ++ k ∧
      encode (.ldhu rd rs k) = 0x32#6 ++ rs ++ rd ++ k ∧ encode (.ldb rd rs k) = 0x33#6 ++ rs ++ rd ++ k ∧
      encode (.ldbu rd rs k) = 0x34#6 ++ rs ++ rd ++ k) ∧
    (¬InWindow (ea s rs k).toNat → Mapped s (ea s rs k).toNat 4 → (ea s rs k).toNat % 4 = 0 →
      ∃ t, exec (.ldw rd rs k) s = .next t ∧ Computes s t rd (wordAt s (ea s rs k).toNat)) ∧
    (¬InWindow (ea s rs k).toNat → Mapped s (ea s rs k).toNat 2 → (ea s rs k).toNat % 2 = 0 →
      (∃ t, exec (.ldh rd rs k) s = .next t ∧
        Computes s t rd ((halfAt s (ea s rs k).toNat).signExtend 32)) ∧
      (∃ t, exec (.ldhu rd rs k) s = .next t ∧
        Computes s t rd (0#16 ++ halfAt s (ea s rs k).toNat))) ∧
    (¬InWindow (ea s rs k).toNat → Mapped s (ea s rs k).toNat 1 →
      (∃ t, exec (.ldb rd rs k) s = .next t ∧
        Computes s t rd ((s.byteAt (ea s rs k).toNat).signExtend 32)) ∧
      (∃ t, exec (.ldbu rd rs k) s = .next t ∧
        Computes s t rd (0#24 ++ s.byteAt (ea s rs k).toNat)))

/-- R156 to R158: the coding of the three stores, and their effect on RAM: exactly the addressed bytes change,
the most significant byte at the lowest address. Byte order, address wrap and regions are the spec's decisions
D2, D5 and D8 (logs 2, 19 and 5). -/
def Obligations.StoresWriteRam : Prop :=
  ∀ (s : State) (rd rs : RegNum) (k : Half),
    (encode (.stw rd rs k) = 0x35#6 ++ rs ++ rd ++ k ∧ encode (.sth rd rs k) = 0x36#6 ++ rs ++ rd ++ k ∧
      encode (.stb rd rs k) = 0x37#6 ++ rs ++ rd ++ k) ∧
    (¬InWindow (ea s rs k).toNat → InRam s (ea s rs k).toNat 4 → (ea s rs k).toNat % 4 = 0 →
      ∃ t, exec (.stw rd rs k) s = .next t ∧
        Stores s t (ea s rs k).toNat
          [(s.reg rd).extractLsb' 24 8, (s.reg rd).extractLsb' 16 8, (s.reg rd).extractLsb' 8 8,
            (s.reg rd).extractLsb' 0 8]) ∧
    (¬InWindow (ea s rs k).toNat → InRam s (ea s rs k).toNat 2 → (ea s rs k).toNat % 2 = 0 →
      ∃ t, exec (.sth rd rs k) s = .next t ∧
        Stores s t (ea s rs k).toNat [(s.reg rd).extractLsb' 8 8, (s.reg rd).extractLsb' 0 8]) ∧
    (¬InWindow (ea s rs k).toNat → InRam s (ea s rs k).toNat 1 →
      ∃ t, exec (.stb rd rs k) s = .next t ∧
        Stores s t (ea s rs k).toNat [(s.reg rd).extractLsb' 0 8])

/-- R45, R150, R159: whatever way a load goes on (memory, keyboard, halted state), it changes no register but rd, no
byte of memory, no display cell, no keyboard character and no parameter. -/
def Obligations.LoadFrame : Prop :=
  ∀ (s t : State) (rd rs : RegNum) (k : Half) (i : Instr),
    i ∈ [.ldw rd rs k, .ldh rd rs k, .ldhu rd rs k, .ldb rd rs k, .ldbu rd rs k] → exec i s = .next t →
    (∀ r, r ≠ rd → t.reg r = s.reg r) ∧ SameMemory s t ∧ t.disp = s.disp ∧ t.kbdChar = s.kbdChar ∧
      t.params = s.params ∧ t.turns = s.turns ∧ t.epoch = s.epoch

/-- R45, R52, R159: whatever way a store goes on (RAM, display, halted state), it changes no register, no byte of
memory outside its own bytes at its effective address, no display cell but the one at its effective address, and nothing of
the keyboard. -/
def Obligations.StoreFrame : Prop :=
  ∀ (s t : State) (i : Instr) (n : Nat) (a : Word), stores s i = some (n, a) → exec i s = .next t →
    SameRegisters s t ∧
    (∀ x : Nat, ¬(a.toNat ≤ x ∧ x < a.toNat + n) → t.byteAt x = s.byteAt x) ∧
    (∀ line column : Nat, column < 128 → a.toNat ≠ 0x30100000 + (line * 128 + column) * 4 →
      t.cell line column = s.cell line column) ∧
    t.kbdReady = s.kbdReady ∧ t.kbdChar = s.kbdChar ∧ t.params = s.params ∧ t.turns = s.turns ∧
    t.free = s.free ∧ t.epoch = s.epoch

/-- R44: a word access at an address that is not a multiple of 4 and a halfword access at an odd address put the
machine in the halted state with MisalignedData(address) and change nothing else, wherever the address lies; a
byte access is never misaligned. These are the spec's decisions D3 and D21 (logs 12 and 28). -/
def Obligations.MisalignedAccessesHaltTheMachine : Prop :=
  (∀ (s : State) (i : Instr) (n : Nat) (a : Word), accesses s i = some (n, a) → a.toNat % n ≠ 0 →
    exec i s = .next (haltedWith s .misalignedData a)) ∧
  (∀ (s t : State) (i : Instr) (a : Word) (h : Halt), accesses s i = some (1, a) → s.halted = none →
    exec i s = .next t → t.halted = some h → h.cause ≠ .misalignedData)

/-- R50, R51 step 4: an aligned load from an address in no region and no window is UnmappedAccess(address), and
changes nothing else. This is the spec's decision D8 (log 12). -/
def Obligations.UnmappedLoadsHaltTheMachine : Prop :=
  ∀ (s : State) (i : Instr) (n : Nat) (a : Word), loads s i = some (n, a) → a.toNat % n = 0 →
    ¬InWindow a.toNat → ¬Mapped s a.toNat n → exec i s = .next (haltedWith s .unmappedAccess a)

/-- R50, R52 steps 4 and 5: an aligned store outside RAM and outside the windows is RomWrite(address) if it
touches a ROM region, else UnmappedAccess(address), and changes nothing else. These are the spec's decisions D8
and D28 (log 12). -/
def Obligations.StoresOutsideRamHaltTheMachine : Prop :=
  ∀ (s : State) (i : Instr) (n : Nat) (a : Word), stores s i = some (n, a) → a.toNat % n = 0 →
    ¬InWindow a.toNat → ¬InRam s a.toNat n →
    (TouchesRom s a.toNat n → exec i s = .next (haltedWith s .romWrite a)) ∧
    (¬TouchesRom s a.toNat n → exec i s = .next (haltedWith s .unmappedAccess a))

/-- R48: what accesses of mixed widths see, from R42: after a word write the narrower reads return its parts,
and after four byte writes a word read returns them joined. The order is the spec's decision D2 (log 2). -/
def Obligations.MixedWidthAccessesAreBigEndian : Prop :=
  ∀ (s : State) (a v : Word) (b0 b1 b2 b3 : Byte), a.toNat % 4 = 0 → ¬InWindow a.toNat →
    InRam s a.toNat 4 →
    (∃ t, s.memWrite .word a v = .done t ∧ t.memRead .word a = .done (v, t) ∧
      t.memRead .byte a = .done (v.extractLsb' 24 8, t) ∧
      t.memRead .byte (a + 3#32) = .done (v.extractLsb' 0 8, t) ∧
      t.memRead .half a = .done (v.extractLsb' 16 16, t) ∧
      t.memRead .half (a + 2#32) = .done (v.extractLsb' 0 16, t)) ∧
    (∃ t0 t1 t2 t3, s.memWrite .byte a b0 = .done t0 ∧ t0.memWrite .byte (a + 1#32) b1 = .done t1 ∧
      t1.memWrite .byte (a + 2#32) b2 = .done t2 ∧ t2.memWrite .byte (a + 3#32) b3 = .done t3 ∧
      t3.memRead .word a = .done (b0 ++ b1 ++ b2 ++ b3, t3))

/-- R57: a fetch sees an earlier store: after STW to RAM, a fetch of the stored word returns it, and if its
address is where the CPU goes next, the next step runs the stored instruction. This is the spec's decision D12
(log 18). -/
def Obligations.FetchSeesEarlierStores : Prop :=
  ∀ (s : State) (rd rs : RegNum) (k : Half), ¬InWindow (ea s rs k).toNat →
    InRam s (ea s rs k).toNat 4 → (ea s rs k).toNat % 4 = 0 →
    ∃ t, exec (.stw rd rs k) s = .next t ∧ t.fetch (ea s rs k) = .done (s.reg rd) ∧
      (∀ i, CpuTurn t → t.pc = ea s rs k → decode t.params.ignoreMustBeZero (s.reg rd) = .instr i →
        step t = exec i (turnTaken t))

/-! ### Peripherals -/

/-- R186, R187: STW to the address of a cell makes the cell hold the whole word and show its lowest 8 bits; no
other cell, no register, no byte of memory and nothing of the keyboard changes. That the cell keeps the whole
word is the spec's decision D14 (log 23). -/
def Obligations.StoringAWordShowsACharacter : Prop :=
  ∀ (s : State) (rd rs : RegNum) (k : Half) (line column : Nat), line < 30 → column < 80 →
    (ea s rs k).toNat = 0x30100000 + (line * 128 + column) * 4 →
    ∃ t, exec (.stw rd rs k) s = .next t ∧ t.cell line column = s.reg rd ∧
      t.shownChar line column = (s.reg rd).extractLsb' 0 8 ∧
      (∀ l c, l < 30 → c < 80 → ¬(l = line ∧ c = column) → t.cell l c = s.cell l c) ∧
      SameRegisters s t ∧ SameMemory s t ∧ t.pc = s.pc + 4#32 ∧ t.halted = s.halted ∧
      t.kbdReady = s.kbdReady ∧ t.kbdChar = s.kbdChar

/-- R188: a word read of the display window, and a word write to a word of it that is not a cell, are refused;
0x30103C00 and up to the keyboard lie in no window. These are the spec's decisions D14 and D22 (logs 12 and 13). -/
def Obligations.OtherDisplayAccessesAreRefused : Prop :=
  ∀ (s : State) (rd rs : RegNum) (k : Half), (ea s rs k).toNat % 4 = 0 →
    (InDisplayWindow (ea s rs k).toNat →
      exec (.ldw rd rs k) s = .refused .displayAccess ∧
      (((ea s rs k).toNat - 0x30100000) / 4 % 128 ≥ 80 →
        exec (.stw rd rs k) s = .refused .displayAccess)) ∧
    (0x30103C00 ≤ (ea s rs k).toNat → (ea s rs k).toNat < 0x30200000 → ¬Mapped s (ea s rs k).toNat 4 →
      exec (.ldw rd rs k) s = .next (haltedWith s .unmappedAccess (ea s rs k)))

/-- R191: a word load from 0x30200000 completes; bit 0 of the loaded word is kbd_ready, the other bits are a
free value (log 9); it has no side effect but the model's own counter of free values (log 10). That the other
bits are any value is the spec's decision D15. -/
def Obligations.KeyboardStatusRead : Prop :=
  ∀ (s : State) (rd rs : RegNum) (k : Half), ea s rs k = 0x30200000#32 →
    ∃ t v, exec (.ldw rd rs k) s = .next t ∧ WritesRegister s t rd v ∧ v.getLsbD 0 = s.kbdReady ∧
      t.pc = s.pc + 4#32 ∧ t.kbdReady = s.kbdReady ∧ t.kbdChar = s.kbdChar ∧ SameMemory s t ∧
      t.disp = s.disp ∧ t.halted = s.halted ∧ t.params = s.params ∧ t.turns = s.turns

/-- R192: a word load from 0x30200004 completes and leaves kbd_ready 0; with a character pending the lowest 8
bits of the loaded word are the character; every other bit is a free value (log 9). That the other bits are any
value, and that a read with no character pending leaves kbd_ready 0, is the spec's decision D15 (log 24). -/
def Obligations.KeyboardDataRead : Prop :=
  ∀ (s : State) (rd rs : RegNum) (k : Half), ea s rs k = 0x30200004#32 →
    ∃ t v, exec (.ldw rd rs k) s = .next t ∧ WritesRegister s t rd v ∧
      (s.kbdReady = true → v.extractLsb' 0 8 = s.kbdChar) ∧ t.kbdReady = false ∧
      t.pc = s.pc + 4#32 ∧ t.kbdChar = s.kbdChar ∧ SameMemory s t ∧ t.disp = s.disp ∧ t.halted = s.halted ∧
      t.params = s.params ∧ t.turns = s.turns

/-- R193: a word write to a keyboard register is refused, and 0x30200008 is outside the window. These are the
spec's decisions D15 and D22 (logs 12 and 13). -/
def Obligations.KeyboardWritesAreRefused : Prop :=
  ∀ (s : State) (rd rs : RegNum) (k : Half),
    (ea s rs k = 0x30200000#32 ∨ ea s rs k = 0x30200004#32 →
      exec (.stw rd rs k) s = .refused .keyboardAccess) ∧
    (ea s rs k = 0x30200008#32 → ¬Mapped s 0x30200008 4 →
      exec (.ldw rd rs k) s = .next (haltedWith s .unmappedAccess 0x30200008#32))

/-- R53: a halfword or byte access to a peripheral window is refused (when it is aligned: R178 puts the
alignment check first). These are the spec's decisions D13 and D21 (logs 13 and 28). -/
def Obligations.SubWordPeripheralAccessesAreRefused : Prop :=
  ∀ (s : State) (i : Instr) (n : Nat) (a : Word), accesses s i = some (n, a) → n ≠ 4 → a.toNat % n = 0 →
    InWindow a.toNat → exec i s = .refused .subWordPeripheralAccess

/-- R55, R194: device accesses take effect in program order: a status read that follows a data read finds the
ready bit 0. Program order is the spec's decision D11 (log 29), the not-ready read its decision D15 (log 24). -/
def Obligations.StatusAfterDataReadIsNotReady : Prop :=
  ∀ (s t u : State) (r q rs qs : RegNum) (j k : Half), ea s rs j = 0x30200004#32 →
    exec (.ldw r rs j) s = .next t → ea t qs k = 0x30200000#32 → exec (.ldw q qs k) t = .next u →
    u.kbdReady = false ∧ (u.reg q).getLsbD 0 = false

/-! ### The end of a run -/

/-- R217: a run that ends within k steps reaches, after some number of steps that is at most k, a running
machine whose pc is END_PC. What counts as an end is the spec's decision D18 (log 30). -/
def Obligations.EndedRunsReachEndPc : Prop :=
  ∀ (endPc : Word) (k : Nat) (s : State), endsWithin endPc k s = true →
    ∃ j t, j ≤ k ∧ Sys2Proof.core.run j s = .next t ∧ t.pc = endPc ∧ t.halted = none
end

