-- ==== Sys2Proof/Laws/State.lean ====
section
/-!
SUPPORT. What each update of the state does to each field, so that no later proof unfolds a record update.
-/

namespace Sys2Proof.Machine

/-! ### `State.setReg` -/

@[simp] theorem setReg_regs (s : State) (r : RegNum) (v : Word) :
    (s.setReg r v).regs = if r = 0#5 then s.regs else s.regs.set r.toNat v r.isLt := rfl

@[simp] theorem setReg_pc (s : State) (r : RegNum) (v : Word) :
    (s.setReg r v).pc = s.pc := rfl

@[simp] theorem setReg_halted (s : State) (r : RegNum) (v : Word) :
    (s.setReg r v).halted = s.halted := rfl

@[simp] theorem setReg_mem (s : State) (r : RegNum) (v : Word) :
    (s.setReg r v).mem = s.mem := rfl

@[simp] theorem setReg_kbdReady (s : State) (r : RegNum) (v : Word) :
    (s.setReg r v).kbdReady = s.kbdReady := rfl

@[simp] theorem setReg_kbdChar (s : State) (r : RegNum) (v : Word) :
    (s.setReg r v).kbdChar = s.kbdChar := rfl

@[simp] theorem setReg_disp (s : State) (r : RegNum) (v : Word) :
    (s.setReg r v).disp = s.disp := rfl

@[simp] theorem setReg_params (s : State) (r : RegNum) (v : Word) :
    (s.setReg r v).params = s.params := rfl

@[simp] theorem setReg_turns (s : State) (r : RegNum) (v : Word) :
    (s.setReg r v).turns = s.turns := rfl

@[simp] theorem setReg_free (s : State) (r : RegNum) (v : Word) :
    (s.setReg r v).free = s.free := rfl

@[simp] theorem setReg_epoch (s : State) (r : RegNum) (v : Word) :
    (s.setReg r v).epoch = s.epoch := rfl

/-! ### `State.setPc` -/

@[simp] theorem setPc_regs (s : State) (t : Word) :
    (s.setPc t).regs = s.regs := rfl

@[simp] theorem setPc_pc (s : State) (t : Word) :
    (s.setPc t).pc = t := rfl

@[simp] theorem setPc_halted (s : State) (t : Word) :
    (s.setPc t).halted = s.halted := rfl

@[simp] theorem setPc_mem (s : State) (t : Word) :
    (s.setPc t).mem = s.mem := rfl

@[simp] theorem setPc_kbdReady (s : State) (t : Word) :
    (s.setPc t).kbdReady = s.kbdReady := rfl

@[simp] theorem setPc_kbdChar (s : State) (t : Word) :
    (s.setPc t).kbdChar = s.kbdChar := rfl

@[simp] theorem setPc_disp (s : State) (t : Word) :
    (s.setPc t).disp = s.disp := rfl

@[simp] theorem setPc_params (s : State) (t : Word) :
    (s.setPc t).params = s.params := rfl

@[simp] theorem setPc_turns (s : State) (t : Word) :
    (s.setPc t).turns = s.turns := rfl

@[simp] theorem setPc_free (s : State) (t : Word) :
    (s.setPc t).free = s.free := rfl

@[simp] theorem setPc_epoch (s : State) (t : Word) :
    (s.setPc t).epoch = s.epoch := rfl

/-! ### `State.advance` -/

@[simp] theorem advance_regs (s : State) :
    s.advance.regs = s.regs := rfl

@[simp] theorem advance_pc (s : State) :
    s.advance.pc = following s.pc := rfl

@[simp] theorem advance_halted (s : State) :
    s.advance.halted = s.halted := rfl

@[simp] theorem advance_mem (s : State) :
    s.advance.mem = s.mem := rfl

@[simp] theorem advance_kbdReady (s : State) :
    s.advance.kbdReady = s.kbdReady := rfl

@[simp] theorem advance_kbdChar (s : State) :
    s.advance.kbdChar = s.kbdChar := rfl

@[simp] theorem advance_disp (s : State) :
    s.advance.disp = s.disp := rfl

@[simp] theorem advance_params (s : State) :
    s.advance.params = s.params := rfl

@[simp] theorem advance_turns (s : State) :
    s.advance.turns = s.turns := rfl

@[simp] theorem advance_free (s : State) :
    s.advance.free = s.free := rfl

@[simp] theorem advance_epoch (s : State) :
    s.advance.epoch = s.epoch := rfl

/-! ### `State.writeBack` -/

@[simp] theorem writeBack_regs (s : State) (r : RegNum) (v : Word) :
    (s.writeBack r v).regs = if r = 0#5 then s.regs else s.regs.set r.toNat v r.isLt := rfl

@[simp] theorem writeBack_pc (s : State) (r : RegNum) (v : Word) :
    (s.writeBack r v).pc = following s.pc := rfl

@[simp] theorem writeBack_halted (s : State) (r : RegNum) (v : Word) :
    (s.writeBack r v).halted = s.halted := rfl

@[simp] theorem writeBack_mem (s : State) (r : RegNum) (v : Word) :
    (s.writeBack r v).mem = s.mem := rfl

@[simp] theorem writeBack_kbdReady (s : State) (r : RegNum) (v : Word) :
    (s.writeBack r v).kbdReady = s.kbdReady := rfl

@[simp] theorem writeBack_kbdChar (s : State) (r : RegNum) (v : Word) :
    (s.writeBack r v).kbdChar = s.kbdChar := rfl

@[simp] theorem writeBack_disp (s : State) (r : RegNum) (v : Word) :
    (s.writeBack r v).disp = s.disp := rfl

@[simp] theorem writeBack_params (s : State) (r : RegNum) (v : Word) :
    (s.writeBack r v).params = s.params := rfl

@[simp] theorem writeBack_turns (s : State) (r : RegNum) (v : Word) :
    (s.writeBack r v).turns = s.turns := rfl

@[simp] theorem writeBack_free (s : State) (r : RegNum) (v : Word) :
    (s.writeBack r v).free = s.free := rfl

@[simp] theorem writeBack_epoch (s : State) (r : RegNum) (v : Word) :
    (s.writeBack r v).epoch = s.epoch := rfl

/-! ### `State.branchIf` -/

@[simp] theorem branchIf_regs (s : State) (b : Bool) (k : Half) :
    (s.branchIf b k).regs = s.regs := rfl

@[simp] theorem branchIf_pc (s : State) (b : Bool) (k : Half) :
    (s.branchIf b k).pc = if b then branchTarget s.pc k else following s.pc := rfl

@[simp] theorem branchIf_halted (s : State) (b : Bool) (k : Half) :
    (s.branchIf b k).halted = s.halted := rfl

@[simp] theorem branchIf_mem (s : State) (b : Bool) (k : Half) :
    (s.branchIf b k).mem = s.mem := rfl

@[simp] theorem branchIf_kbdReady (s : State) (b : Bool) (k : Half) :
    (s.branchIf b k).kbdReady = s.kbdReady := rfl

@[simp] theorem branchIf_kbdChar (s : State) (b : Bool) (k : Half) :
    (s.branchIf b k).kbdChar = s.kbdChar := rfl

@[simp] theorem branchIf_disp (s : State) (b : Bool) (k : Half) :
    (s.branchIf b k).disp = s.disp := rfl

@[simp] theorem branchIf_params (s : State) (b : Bool) (k : Half) :
    (s.branchIf b k).params = s.params := rfl

@[simp] theorem branchIf_turns (s : State) (b : Bool) (k : Half) :
    (s.branchIf b k).turns = s.turns := rfl

@[simp] theorem branchIf_free (s : State) (b : Bool) (k : Half) :
    (s.branchIf b k).free = s.free := rfl

@[simp] theorem branchIf_epoch (s : State) (b : Bool) (k : Half) :
    (s.branchIf b k).epoch = s.epoch := rfl

/-! ### `State.raise` -/

@[simp] theorem raise_regs (s : State) (c : Cause) (x : Word) :
    (s.raise c x).regs = s.regs := rfl

@[simp] theorem raise_pc (s : State) (c : Cause) (x : Word) :
    (s.raise c x).pc = s.pc := rfl

@[simp] theorem raise_halted (s : State) (c : Cause) (x : Word) :
    (s.raise c x).halted = some { cause := c, atPc := s.pc, info := x } := rfl

@[simp] theorem raise_mem (s : State) (c : Cause) (x : Word) :
    (s.raise c x).mem = s.mem := rfl

@[simp] theorem raise_kbdReady (s : State) (c : Cause) (x : Word) :
    (s.raise c x).kbdReady = s.kbdReady := rfl

@[simp] theorem raise_kbdChar (s : State) (c : Cause) (x : Word) :
    (s.raise c x).kbdChar = s.kbdChar := rfl

@[simp] theorem raise_disp (s : State) (c : Cause) (x : Word) :
    (s.raise c x).disp = s.disp := rfl

@[simp] theorem raise_params (s : State) (c : Cause) (x : Word) :
    (s.raise c x).params = s.params := rfl

@[simp] theorem raise_turns (s : State) (c : Cause) (x : Word) :
    (s.raise c x).turns = s.turns := rfl

@[simp] theorem raise_free (s : State) (c : Cause) (x : Word) :
    (s.raise c x).free = s.free := rfl

@[simp] theorem raise_epoch (s : State) (c : Cause) (x : Word) :
    (s.raise c x).epoch = s.epoch := rfl

/-! ### `State.keyArrives` -/

@[simp] theorem keyArrives_regs (s : State) (c : Byte) (k : Bool) :
    (s.keyArrives c k).regs = s.regs := rfl

@[simp] theorem keyArrives_pc (s : State) (c : Byte) (k : Bool) :
    (s.keyArrives c k).pc = s.pc := rfl

@[simp] theorem keyArrives_halted (s : State) (c : Byte) (k : Bool) :
    (s.keyArrives c k).halted = s.halted := rfl

@[simp] theorem keyArrives_mem (s : State) (c : Byte) (k : Bool) :
    (s.keyArrives c k).mem = s.mem := rfl

@[simp] theorem keyArrives_kbdReady (s : State) (c : Byte) (k : Bool) :
    (s.keyArrives c k).kbdReady = true := rfl

@[simp] theorem keyArrives_kbdChar (s : State) (c : Byte) (k : Bool) :
    (s.keyArrives c k).kbdChar = if s.kbdReady && !k then s.kbdChar else c := rfl

@[simp] theorem keyArrives_disp (s : State) (c : Byte) (k : Bool) :
    (s.keyArrives c k).disp = s.disp := rfl

@[simp] theorem keyArrives_params (s : State) (c : Byte) (k : Bool) :
    (s.keyArrives c k).params = s.params := rfl

@[simp] theorem keyArrives_turns (s : State) (c : Byte) (k : Bool) :
    (s.keyArrives c k).turns = s.turns := rfl

@[simp] theorem keyArrives_free (s : State) (c : Byte) (k : Bool) :
    (s.keyArrives c k).free = s.free := rfl

@[simp] theorem keyArrives_epoch (s : State) (c : Byte) (k : Bool) :
    (s.keyArrives c k).epoch = s.epoch := rfl

/-! ### `State.resetEvent` -/

@[simp] theorem resetEvent_regs (s : State) :
    s.resetEvent.regs = resetRegs (s.epoch + 1) := rfl

@[simp] theorem resetEvent_pc (s : State) :
    s.resetEvent.pc = s.params.resetPc := rfl

@[simp] theorem resetEvent_halted (s : State) :
    s.resetEvent.halted = none := rfl

@[simp] theorem resetEvent_mem (s : State) :
    s.resetEvent.mem = s.mem.filter (fun cell => romHolds s.params cell.1) := rfl

@[simp] theorem resetEvent_kbdReady (s : State) :
    s.resetEvent.kbdReady = Config.resetKbdReady (s.epoch + 1) := rfl

@[simp] theorem resetEvent_kbdChar (s : State) :
    s.resetEvent.kbdChar = Config.resetKbdChar (s.epoch + 1) := rfl

@[simp] theorem resetEvent_disp (s : State) :
    s.resetEvent.disp = [] := rfl

@[simp] theorem resetEvent_params (s : State) :
    s.resetEvent.params = s.params := rfl

@[simp] theorem resetEvent_turns (s : State) :
    s.resetEvent.turns = s.turns := rfl

@[simp] theorem resetEvent_free (s : State) :
    s.resetEvent.free = s.free := rfl

@[simp] theorem resetEvent_epoch (s : State) :
    s.resetEvent.epoch = s.epoch + 1 := rfl

end Sys2Proof.Machine
end

