-- ==== Sys2Proof/Laws/Memory.lean ====
section
/-!
SUPPORT. The laws of the lists that hold memory and display: read after write, and the canonical form is kept.
-/

namespace Sys2Proof.Machine

variable {β : Type}

/-- Reading after writing a key. -/
theorem lookupKey_insertKey (m : List (Nat × β)) (a b : Nat) (v : β) :
    lookupKey (insertKey m a v) b = if b = a then some v else lookupKey m b := by
  induction m with
  | nil => simp [insertKey, lookupKey, eq_comm]
  | cons c rest ih =>
    obtain ⟨k, w⟩ := c
    by_cases h₁ : a < k
    · simp [insertKey, h₁, lookupKey, eq_comm]
    · by_cases h₂ : a = k
      · subst h₂
        by_cases hb : b = a
        · simp [insertKey, lookupKey, hb]
        · simp [insertKey, lookupKey, hb, Ne.symm hb]
      · by_cases hk : k = b
        · subst hk
          simp [insertKey, h₁, h₂, lookupKey, Ne.symm h₂]
        · simp [insertKey, h₁, h₂, lookupKey, ih, hk]

@[simp] theorem lookupKey_insertKey_same (m : List (Nat × β)) (a : Nat) (v : β) :
    lookupKey (insertKey m a v) a = some v := by
  simp [lookupKey_insertKey]

theorem lookupKey_insertKey_other (m : List (Nat × β)) {a b : Nat} (v : β) (h : b ≠ a) :
    lookupKey (insertKey m a v) b = lookupKey m b := by
  simp [lookupKey_insertKey, h]

theorem risingAbove_insertKey (m : List (Nat × β)) {lo a : Nat} (v : β) (ha : lo < a)
    (h : risingAbove lo m = true) : risingAbove lo (insertKey m a v) = true := by
  induction m generalizing lo with
  | nil => simp [insertKey, risingAbove, ha]
  | cons c rest ih =>
    obtain ⟨k, w⟩ := c
    simp only [risingAbove, Bool.and_eq_true, decide_eq_true_eq] at h
    by_cases h₁ : a < k
    · simp [insertKey, h₁, risingAbove, ha, h.2]
    · by_cases h₂ : a = k
      · subst h₂
        simp [insertKey, risingAbove, ha, h.2]
      · have hk : k < a := by omega
        simp [insertKey, h₁, h₂, risingAbove, h.1, ih hk h.2]

/-- A write keeps the canonical form. -/
theorem rising_insertKey (m : List (Nat × β)) (a : Nat) (v : β) (h : rising m = true) :
    rising (insertKey m a v) = true := by
  cases m with
  | nil => simp [insertKey, rising, risingAbove]
  | cons c rest =>
    obtain ⟨k, w⟩ := c
    simp only [rising] at h
    by_cases h₁ : a < k
    · simp [insertKey, h₁, rising, risingAbove, h]
    · by_cases h₂ : a = k
      · subst h₂
        simp [insertKey, rising, h]
      · have hk : k < a := by omega
        simp [insertKey, h₁, h₂, rising, risingAbove_insertKey rest v hk h]

theorem risingAbove_mono (m : List (Nat × β)) {lo hi : Nat} (hlt : lo ≤ hi)
    (h : risingAbove hi m = true) : risingAbove lo m = true := by
  cases m with
  | nil => rfl
  | cons c rest =>
    simp only [risingAbove, Bool.and_eq_true, decide_eq_true_eq] at h ⊢
    exact ⟨by omega, h.2⟩

theorem risingAbove_filter (m : List (Nat × β)) (p : Nat × β → Bool) {lo : Nat}
    (h : risingAbove lo m = true) : risingAbove lo (m.filter p) = true := by
  induction m generalizing lo with
  | nil => rfl
  | cons c rest ih =>
    simp only [risingAbove, Bool.and_eq_true, decide_eq_true_eq] at h
    by_cases hp : p c = true
    · simp [List.filter_cons_of_pos hp, risingAbove, h.1, ih h.2]
    · rw [List.filter_cons_of_neg hp]
      exact ih (risingAbove_mono rest (by omega) h.2)

/-- Dropping entries keeps the canonical form. -/
theorem rising_filter (m : List (Nat × β)) (p : Nat × β → Bool) (h : rising m = true) :
    rising (m.filter p) = true := by
  cases m with
  | nil => rfl
  | cons c rest =>
    by_cases hp : p c = true
    · rw [List.filter_cons_of_pos hp]
      exact risingAbove_filter rest p h
    · rw [List.filter_cons_of_neg hp]
      have := risingAbove_filter rest p h
      cases hr : rest.filter p with
      | nil => rfl
      | cons d more =>
        rw [hr] at this
        simp only [risingAbove, Bool.and_eq_true] at this
        exact this.2

/-- What is listed after a write: the new entry, or an old one. -/
theorem mem_insertKey {m : List (Nat × β)} {a : Nat} {v : β} {c : Nat × β}
    (h : c ∈ insertKey m a v) : c = (a, v) ∨ c ∈ m := by
  induction m with
  | nil => simpa [insertKey] using h
  | cons d rest ih =>
    obtain ⟨k, w⟩ := d
    by_cases h₁ : a < k
    · simpa [insertKey, h₁] using h
    · by_cases h₂ : a = k
      · subst h₂
        simp only [insertKey, lt_irrefl, if_false, if_true, List.mem_cons] at h
        exact h.imp id (List.mem_cons_of_mem _)
      · simp only [insertKey, h₁, h₂, if_false, List.mem_cons] at h
        rcases h with h | h
        · exact .inr (h ▸ List.mem_cons_self)
        · exact (ih h).imp id (List.mem_cons_of_mem _)

/-! ### Bytes -/

theorem writeBytes_wf (m : Memory) (a : Nat) (bs : List Byte) (h : Memory.wf m = true) :
    Memory.wf (writeBytes m a bs) = true := by
  induction bs generalizing m a with
  | nil => exact h
  | cons b bs ih => exact ih _ _ (rising_insertKey m a b h)

/-- A byte below the ones written is as before. -/
theorem lookupKey_writeBytes_below (m : Memory) {a x : Nat} (bs : List Byte) (h : x < a) :
    lookupKey (writeBytes m a bs) x = lookupKey m x := by
  induction bs generalizing m a with
  | nil => rfl
  | cons b bs ih =>
    rw [writeBytes, ih _ (by omega), lookupKey_insertKey_other _ _ (by omega)]

/-- Reading any byte after a write of several. -/
theorem lookupKey_writeBytes (m : Memory) (a x : Nat) (bs : List Byte) :
    lookupKey (writeBytes m a bs) x = if a ≤ x ∧ x < a + bs.length then bs[x - a]? else lookupKey m x := by
  induction bs generalizing m a with
  | nil => simp [writeBytes]
  | cons b bs ih =>
    rw [writeBytes, ih]
    by_cases h : x = a
    · subst h
      simp
    · by_cases h₁ : a + 1 ≤ x ∧ x < a + 1 + bs.length
      · have e : x - a = (x - (a + 1)) + 1 := by omega
        have h₂ : a ≤ x ∧ x < a + (b :: bs).length := by simp; omega
        rw [if_pos h₁, if_pos h₂, e]
        simp
      · have h₂ : ¬(a ≤ x ∧ x < a + (b :: bs).length) := by simp; omega
        rw [if_neg h₁, if_neg h₂, lookupKey_insertKey_other _ _ h]

/-- What is listed after a write of several bytes lies among them or was listed before. -/
theorem mem_writeBytes {m : Memory} {a : Nat} {bs : List Byte} {c : Host.Cell}
    (h : c ∈ writeBytes m a bs) : (a ≤ c.1 ∧ c.1 < a + bs.length) ∨ c ∈ m := by
  induction bs generalizing m a with
  | nil => exact .inr h
  | cons b bs ih =>
    rcases ih h with h | h
    · exact .inl (by simp; omega)
    · rcases mem_insertKey h with h | h
      · exact .inl (by simp [h])
      · exact .inr h

theorem valueBytes_length (w : Width) (v : BitVec w.bits) : (valueBytes w v).length = w.bytes := by
  cases w <;> rfl

/-- The four bytes of a word, put together again, are the word (R42, R48). -/
theorem append_wordBytes (v : Word) :
    v.extractLsb' 24 8 ++ v.extractLsb' 16 8 ++ v.extractLsb' 8 8 ++ v.extractLsb' 0 8 = v := by
  rw [BitVec.extractLsb'_append_extractLsb'_eq_extractLsb' (by decide)]
  rw [BitVec.extractLsb'_append_extractLsb'_eq_extractLsb' (by decide)]
  rw [BitVec.extractLsb'_append_extractLsb'_eq_extractLsb' (by decide)]
  exact BitVec.extractLsb'_eq_self

end Sys2Proof.Machine
end

