-- ==== Sys2Proof/Laws/Registers.lean ====
section
/-!
SUPPORT. Reading a register after an update: the hard-wired register 0 and read after write
(spec/10_state.md R21).
-/

namespace Sys2Proof.Machine

@[simp] theorem reg_zero (s : State) : s.reg 0#5 = 0#32 := rfl

theorem reg_of_ne_zero (s : State) {r : RegNum} (h : r ≠ 0#5) : s.reg r = s.regs[r.toNat]'r.isLt :=
  if_neg h

/-- Two states with the same registers read the same. -/
theorem reg_congr {s t : State} (h : t.regs = s.regs) (r : RegNum) : t.reg r = s.reg r := by
  simp [State.reg, h]

theorem reg_setReg (s : State) (r q : RegNum) (v : Word) :
    (s.setReg r v).reg q = if q = r ∧ r ≠ 0#5 then v else s.reg q := by
  by_cases hq : q = 0#5
  · subst hq
    by_cases h : r = 0#5
    · simp [h]
    · simp [h, Ne.symm h]
  · by_cases hr : r = 0#5
    · simp [State.reg, hr]
    · by_cases h : q = r
      · subst h
        simp [State.reg, hr]
      · have : r.toNat ≠ q.toNat := fun e => h (BitVec.eq_of_toNat_eq e.symm)
        simp [State.reg, hq, hr, h, this]

@[simp] theorem reg_setPc (s : State) (t : Word) (q : RegNum) : (s.setPc t).reg q = s.reg q := rfl

@[simp] theorem reg_advance (s : State) (q : RegNum) : s.advance.reg q = s.reg q := rfl

@[simp] theorem reg_raise (s : State) (c : Cause) (x : Word) (q : RegNum) :
    (s.raise c x).reg q = s.reg q := rfl

@[simp] theorem reg_branchIf (s : State) (b : Bool) (k : Half) (q : RegNum) :
    (s.branchIf b k).reg q = s.reg q := rfl

@[simp] theorem reg_keyArrives (s : State) (c : Byte) (k : Bool) (q : RegNum) :
    (s.keyArrives c k).reg q = s.reg q := rfl

theorem reg_writeBack (s : State) (r q : RegNum) (v : Word) :
    (s.writeBack r v).reg q = if q = r ∧ r ≠ 0#5 then v else s.reg q :=
  reg_setReg s r q v

/-- Slot 0 of the register file is never written. -/
theorem regs_zero_setReg (s : State) (r : RegNum) (v : Word) :
    (s.setReg r v).regs[0] = s.regs[0] := by
  by_cases hr : r = 0#5
  · simp [hr]
  · have : r.toNat ≠ 0 := fun e => hr (BitVec.eq_of_toNat_eq e)
    simp [hr, this]

theorem resetRegs_zero (epoch : Nat) : (resetRegs epoch)[0] = 0#32 := by
  unfold resetRegs
  simp

end Sys2Proof.Machine
end

