-- ==== Sys2Proof/Laws/Access.lean ====
section
/-!
SUPPORT. Everything each memory primitive, each load and each store can do, said once: later proofs cite these
and never unfold the primitives (spec/20_memory.md R51, R52, R54, spec/44_load_store.md R159).
-/

namespace Sys2Proof.Machine

/-! ### Devices -/

/-- What a word read of a peripheral window does, if it completes (R191, R192). -/
theorem deviceRead_done {s t : State} {a v : Word} (h : s.deviceRead a = .done (v, t)) :
    (a.toNat = Config.keyboardStatus ∧ v = s.statusWord ∧ t = { s with free := s.free + 1 }) ∨
    (a.toNat = Config.keyboardData ∧ v = s.dataWord ∧
      t = { s with kbdReady := false, free := s.free + 1 }) := by
  unfold State.deviceRead at h
  split at h
  · cases h
  · split at h
    · injection h with h
      injection h with h₁ h₂
      exact .inl ⟨by assumption, h₁.symm, h₂.symm⟩
    · split at h
      · injection h with h
        injection h with h₁ h₂
        exact .inr ⟨by assumption, h₁.symm, h₂.symm⟩
      · cases h

/-- A word read of a peripheral window raises nothing. -/
theorem deviceRead_ne_raised (s : State) (a : Word) (c : Cause) (x : Word) :
    s.deviceRead a ≠ .raised c x := by
  unfold State.deviceRead
  split
  · simp
  · split
    · simp
    · split <;> simp

/-- What a word write to a peripheral window does, if it completes (R187). -/
theorem deviceWrite_done {s t : State} {a v : Word} (h : s.deviceWrite a v = .done t) :
    inDisplay a = true ∧ isCell (cellNumber a) = true ∧
      t = { s with disp := insertKey s.disp (cellNumber a) v } := by
  unfold State.deviceWrite at h
  split at h
  · split at h
    · injection h with h
      exact ⟨by assumption, by assumption, h.symm⟩
    · cases h
  · cases h

/-- A word write to a peripheral window raises nothing. -/
theorem deviceWrite_ne_raised (s : State) (a v : Word) (c : Cause) (x : Word) :
    s.deviceWrite a v ≠ .raised c x := by
  unfold State.deviceWrite
  split
  · split <;> simp
  · simp

/-! ### MemRead -/

/-- A read that completes read memory or a keyboard register. -/
theorem memRead_done {s t : State} {w : Width} {a : Word} {v : BitVec w.bits}
    (h : s.memRead w a = .done (v, t)) :
    aligned w a = true ∧
    ((inPeripheral a = false ∧ s.inRegion a.toNat w.bytes = true ∧ v = s.valueAt w a.toNat ∧ t = s) ∨
     (w = .word ∧ a.toNat = Config.keyboardStatus ∧ HEq v s.statusWord ∧
        t = { s with free := s.free + 1 }) ∨
     (w = .word ∧ a.toNat = Config.keyboardData ∧ HEq v s.dataWord ∧
        t = { s with kbdReady := false, free := s.free + 1 })) := by
  unfold State.memRead at h
  split at h
  · refine ⟨by assumption, ?_⟩
    split at h
    · cases w with
      | byte => cases h
      | half => cases h
      | word =>
        rcases deviceRead_done h with ⟨ha, hv, ht⟩ | ⟨ha, hv, ht⟩
        · exact .inr (.inl ⟨rfl, ha, heq_of_eq hv, ht⟩)
        · exact .inr (.inr ⟨rfl, ha, heq_of_eq hv, ht⟩)
    · split at h
      · injection h with h
        injection h with h₁ h₂
        exact .inl ⟨by simp_all, by assumption, h₁.symm, h₂.symm⟩
      · cases h
  · cases h

/-- The state after a read that completes differs from the one before in the keyboard only. -/
theorem memRead_done_state {s t : State} {w : Width} {a : Word} {v : BitVec w.bits}
    (h : s.memRead w a = .done (v, t)) : ∃ b n, t = { s with kbdReady := b, free := n } := by
  rcases memRead_done h with ⟨_, ⟨_, _, _, rfl⟩ | ⟨_, _, _, rfl⟩ | ⟨_, _, _, rfl⟩⟩
  · exact ⟨_, _, rfl⟩
  · exact ⟨_, _, rfl⟩
  · exact ⟨_, _, rfl⟩

/-- When a read raises, and what (R44, R50). -/
theorem memRead_raised {s : State} {w : Width} {a : Word} {c : Cause} {x : Word}
    (h : s.memRead w a = .raised c x) :
    x = a ∧
    ((c = .misalignedData ∧ aligned w a = false) ∨
     (c = .unmappedAccess ∧ aligned w a = true ∧ inPeripheral a = false ∧
        s.inRegion a.toNat w.bytes = false)) := by
  unfold State.memRead at h
  split at h
  · split at h
    · cases w with
      | byte => cases h
      | half => cases h
      | word => exact absurd h (deviceRead_ne_raised s a c x)
    · split at h
      · cases h
      · injection h with h₁ h₂
        exact ⟨h₂.symm, .inr ⟨h₁.symm, by assumption, by simp_all, by simp_all⟩⟩
  · injection h with h₁ h₂
    exact ⟨h₂.symm, .inl ⟨h₁.symm, by simp_all⟩⟩

/-- A misaligned read (R44). -/
theorem memRead_of_misaligned (s : State) {w : Width} {a : Word} (h : aligned w a = false) :
    s.memRead w a = .raised .misalignedData a := by
  simp [State.memRead, h]

/-- A read of memory (R51 step 3). -/
theorem memRead_of_region (s : State) {w : Width} {a : Word} (h : aligned w a = true)
    (hp : inPeripheral a = false) (hr : s.inRegion a.toNat w.bytes = true) :
    s.memRead w a = .done (s.valueAt w a.toNat, s) := by
  simp [State.memRead, h, hp, hr]

/-- A read of an unmapped address (R51 step 4). -/
theorem memRead_of_unmapped (s : State) {w : Width} {a : Word} (h : aligned w a = true)
    (hp : inPeripheral a = false) (hr : s.inRegion a.toNat w.bytes = false) :
    s.memRead w a = .raised .unmappedAccess a := by
  simp [State.memRead, h, hp, hr]

/-- A word read of a peripheral window (R51 step 2). -/
theorem memRead_word_of_peripheral (s : State) {a : Word} (h : aligned .word a = true)
    (hp : inPeripheral a = true) : s.memRead .word a = s.deviceRead a := by
  simp [State.memRead, h, hp]

/-- A halfword or byte read of a peripheral window (R53). -/
theorem memRead_subword_of_peripheral (s : State) {w : Width} {a : Word} (hw : w ≠ .word)
    (h : aligned w a = true) (hp : inPeripheral a = true) :
    s.memRead w a = .refused .subWordPeripheralAccess := by
  cases w with
  | word => exact absurd rfl hw
  | half => simp [State.memRead, h, hp]
  | byte => simp [State.memRead, h, hp]

/-! ### MemWrite -/

/-- A write that completes wrote RAM or a display cell. -/
theorem memWrite_done {s t : State} {w : Width} {a : Word} {v : BitVec w.bits}
    (h : s.memWrite w a v = .done t) :
    aligned w a = true ∧
    ((inPeripheral a = false ∧ s.inRam a.toNat w.bytes = true ∧
        t = { s with mem := writeBytes s.mem a.toNat (valueBytes w v) }) ∨
     (w = .word ∧ inDisplay a = true ∧ isCell (cellNumber a) = true ∧
        ∃ x : Word, HEq x v ∧ t = { s with disp := insertKey s.disp (cellNumber a) x })) := by
  unfold State.memWrite at h
  split at h
  · refine ⟨by assumption, ?_⟩
    split at h
    · cases w with
      | byte => cases h
      | half => cases h
      | word =>
        obtain ⟨hd, hc, ht⟩ := deviceWrite_done h
        exact .inr ⟨rfl, hd, hc, v, HEq.rfl, ht⟩
    · split at h
      · injection h with h
        exact .inl ⟨by simp_all, by assumption, h.symm⟩
      · split at h <;> cases h
  · cases h

/-- When a write raises, and what (R44, R50). -/
theorem memWrite_raised {s : State} {w : Width} {a : Word} {v : BitVec w.bits} {c : Cause} {x : Word}
    (h : s.memWrite w a v = .raised c x) :
    x = a ∧
    ((c = .misalignedData ∧ aligned w a = false) ∨
     (c = .romWrite ∧ aligned w a = true ∧ inPeripheral a = false ∧
        s.inRam a.toNat w.bytes = false ∧ s.meetsRom a.toNat w.bytes = true) ∨
     (c = .unmappedAccess ∧ aligned w a = true ∧ inPeripheral a = false ∧
        s.inRam a.toNat w.bytes = false ∧ s.meetsRom a.toNat w.bytes = false)) := by
  unfold State.memWrite at h
  split at h
  · split at h
    · cases w with
      | byte => cases h
      | half => cases h
      | word => exact absurd h (deviceWrite_ne_raised s a v c x)
    · split at h
      · cases h
      · split at h
        · injection h with h₁ h₂
          exact ⟨h₂.symm, .inr (.inl ⟨h₁.symm, by assumption, by simp_all, by simp_all, by assumption⟩)⟩
        · injection h with h₁ h₂
          exact ⟨h₂.symm, .inr (.inr ⟨h₁.symm, by assumption, by simp_all, by simp_all, by simp_all⟩)⟩
  · injection h with h₁ h₂
    exact ⟨h₂.symm, .inl ⟨h₁.symm, by simp_all⟩⟩

/-- A misaligned write (R44). -/
theorem memWrite_of_misaligned (s : State) {w : Width} {a : Word} (v : BitVec w.bits)
    (h : aligned w a = false) : s.memWrite w a v = .raised .misalignedData a := by
  simp [State.memWrite, h]

/-- A write to RAM (R52 step 3). -/
theorem memWrite_of_ram (s : State) {w : Width} {a : Word} (v : BitVec w.bits)
    (h : aligned w a = true) (hp : inPeripheral a = false) (hr : s.inRam a.toNat w.bytes = true) :
    s.memWrite w a v = .done { s with mem := writeBytes s.mem a.toNat (valueBytes w v) } := by
  simp [State.memWrite, h, hp, hr]

/-- A word write to a peripheral window (R52 step 2). -/
theorem memWrite_word_of_peripheral (s : State) {a : Word} (v : Word) (h : aligned .word a = true)
    (hp : inPeripheral a = true) : s.memWrite .word a v = s.deviceWrite a v := by
  simp [State.memWrite, h, hp]

/-- A halfword or byte write to a peripheral window (R53). -/
theorem memWrite_subword_of_peripheral (s : State) {w : Width} {a : Word} (v : BitVec w.bits)
    (hw : w ≠ .word) (h : aligned w a = true) (hp : inPeripheral a = true) :
    s.memWrite w a v = .refused .subWordPeripheralAccess := by
  cases w with
  | word => exact absurd rfl hw
  | half => simp [State.memWrite, h, hp]
  | byte => simp [State.memWrite, h, hp]

/-! ### Fetch -/

/-- A fetch that completes read memory. -/
theorem fetch_done {s : State} {a w : Word} (h : s.fetch a = .done w) :
    aligned .word a = true ∧ s.inRegion a.toNat 4 = true ∧ inPeripheral a = false ∧
      w = s.valueAt .word a.toNat := by
  unfold State.fetch at h
  split at h
  · split at h
    · injection h with h
      rename_i h₁ h₂
      simp only [Bool.and_eq_true, Bool.not_eq_true'] at h₂
      exact ⟨h₁, h₂.1, h₂.2, h.symm⟩
    · cases h
  · cases h

/-- When a fetch raises, and what (R43, R50). -/
theorem fetch_raised {s : State} {a : Word} {c : Cause} {x : Word} (h : s.fetch a = .raised c x) :
    x = a ∧
    ((c = .misalignedFetch ∧ aligned .word a = false) ∨
     (c = .unmappedAccess ∧ aligned .word a = true ∧
        (s.inRegion a.toNat 4 && !inPeripheral a) = false)) := by
  unfold State.fetch at h
  split at h
  · split at h
    · cases h
    · injection h with h₁ h₂
      exact ⟨h₂.symm, .inr ⟨h₁.symm, by assumption, by simp_all⟩⟩
  · injection h with h₁ h₂
    exact ⟨h₂.symm, .inl ⟨h₁.symm, by simp_all⟩⟩

/-- A fetch is never refused. -/
theorem fetch_ne_refused (s : State) (a : Word) (r : Refusal) : s.fetch a ≠ .refused r := by
  unfold State.fetch
  split
  · split <;> simp
  · simp

/-! ### Loads and stores -/

/-- Everything a load that answers a next state can do. -/
theorem load_next {s t : State} {w : Width} {widen : BitVec w.bits → Word} {rd rs : RegNum} {k : Half}
    (h : s.load w widen rd rs k = .next t) :
    (∃ v s', s.memRead w (s.address rs k) = .done (v, s') ∧ t = s'.writeBack rd (widen v)) ∨
    (∃ c x, s.memRead w (s.address rs k) = .raised c x ∧ t = s.raise c x) := by
  unfold State.load at h
  split at h
  · injection h with h
    exact .inl ⟨_, _, by assumption, h.symm⟩
  · injection h with h
    exact .inr ⟨_, _, by assumption, h.symm⟩
  · cases h

/-- Everything a store that answers a next state can do. -/
theorem store_next {s t : State} {w : Width} {v : BitVec w.bits} {rs : RegNum} {k : Half}
    (h : s.store w v rs k = .next t) :
    (∃ s', s.memWrite w (s.address rs k) v = .done s' ∧ t = s'.advance) ∨
    (∃ c x, s.memWrite w (s.address rs k) v = .raised c x ∧ t = s.raise c x) := by
  unfold State.store at h
  split at h
  · injection h with h
    exact .inl ⟨_, by assumption, h.symm⟩
  · injection h with h
    exact .inr ⟨_, _, by assumption, h.symm⟩
  · cases h

theorem load_of_done {s s' : State} {w : Width} {widen : BitVec w.bits → Word} {rd rs : RegNum}
    {k : Half} {v : BitVec w.bits} (h : s.memRead w (s.address rs k) = .done (v, s')) :
    s.load w widen rd rs k = .next (s'.writeBack rd (widen v)) := by
  simp [State.load, h]

theorem load_of_raised {s : State} {w : Width} {widen : BitVec w.bits → Word} {rd rs : RegNum}
    {k : Half} {c : Cause} {x : Word} (h : s.memRead w (s.address rs k) = .raised c x) :
    s.load w widen rd rs k = .next (s.raise c x) := by
  simp [State.load, h]

theorem load_of_refused {s : State} {w : Width} {widen : BitVec w.bits → Word} {rd rs : RegNum}
    {k : Half} {r : Refusal} (h : s.memRead w (s.address rs k) = .refused r) :
    s.load w widen rd rs k = .refused r := by
  simp [State.load, h]

theorem store_of_done {s s' : State} {w : Width} {v : BitVec w.bits} {rs : RegNum} {k : Half}
    (h : s.memWrite w (s.address rs k) v = .done s') : s.store w v rs k = .next s'.advance := by
  simp [State.store, h]

theorem store_of_raised {s : State} {w : Width} {v : BitVec w.bits} {rs : RegNum} {k : Half}
    {c : Cause} {x : Word} (h : s.memWrite w (s.address rs k) v = .raised c x) :
    s.store w v rs k = .next (s.raise c x) := by
  simp [State.store, h]

theorem store_of_refused {s : State} {w : Width} {v : BitVec w.bits} {rs : RegNum} {k : Half}
    {r : Refusal} (h : s.memWrite w (s.address rs k) v = .refused r) :
    s.store w v rs k = .refused r := by
  simp [State.store, h]

end Sys2Proof.Machine
end

