-- ==== Sys2Proof/Laws/Encoding.lean ====
section
/-!
SUPPORT. The fields of the words the formats build (spec/30_encoding.md R72 to R79): every field of a format is read
back as it was put in.
-/

namespace Sys2Proof

/-! ### Each bit of a format -/

theorem formatRRR_bit (op : BitVec 6) (a b c : RegNum) (i : Nat) :
    (formatRRR op a b c).getLsbD i =
      if i < 11 then false
      else if i < 16 then c.getLsbD (i - 11)
      else if i < 21 then b.getLsbD (i - 16)
      else if i < 26 then a.getLsbD (i - 21)
      else op.getLsbD (i - 26) := by
  show BitVec.getLsbD (w := 6 + 5 + 5 + 5 + 11) (op ++ a ++ b ++ c ++ 0#11) i = _
  simp only [BitVec.getLsbD_append, BitVec.getLsbD_zero, Nat.sub_sub]
  grind

theorem formatRRI_bit (op : BitVec 6) (a b : RegNum) (k : Half) (i : Nat) :
    (formatRRI op a b k).getLsbD i =
      if i < 16 then k.getLsbD i
      else if i < 21 then b.getLsbD (i - 16)
      else if i < 26 then a.getLsbD (i - 21)
      else op.getLsbD (i - 26) := by
  show BitVec.getLsbD (w := 6 + 5 + 5 + 16) (op ++ a ++ b ++ k) i = _
  simp only [BitVec.getLsbD_append, Nat.sub_sub]
  grind

theorem formatRHH_bit (op : BitVec 6) (b : RegNum) (k : Half) (i : Nat) :
    (formatRHH op b k).getLsbD i =
      if i < 16 then k.getLsbD i
      else if i < 21 then b.getLsbD (i - 16)
      else if i < 26 then false
      else op.getLsbD (i - 26) := by
  show BitVec.getLsbD (w := 6 + 5 + 5 + 16) (op ++ 0#5 ++ b ++ k) i = _
  simp only [BitVec.getLsbD_append, BitVec.getLsbD_zero, Nat.sub_sub]
  grind

theorem formatJ_bit (op : BitVec 6) (k : JumpField) (i : Nat) :
    (formatJ op k).getLsbD i =
      if i < 26 then k.getLsbD i
      else op.getLsbD (i - 26) := by
  show BitVec.getLsbD (w := 6 + 26) (op ++ k) i = _
  simp only [BitVec.getLsbD_append]

theorem formatJR_bit (op : BitVec 6) (a : RegNum) (i : Nat) :
    (formatJR op a).getLsbD i =
      if i < 21 then false
      else if i < 26 then a.getLsbD (i - 21)
      else op.getLsbD (i - 26) := by
  show BitVec.getLsbD (w := 6 + 5 + 5 + 16) (op ++ a ++ 0#5 ++ 0#16) i = _
  simp only [BitVec.getLsbD_append, BitVec.getLsbD_zero, Nat.sub_sub]
  grind

/-! ### Each field of a format -/

theorem fieldOp_formatRRR (op : BitVec 6) (a b c : RegNum) :
    fieldOp (formatRRR op a b c) = op := by
  apply BitVec.eq_of_getLsbD_eq
  intro i hi
  simp [fieldOp, formatRRR_bit, hi]
  grind

theorem fieldA_formatRRR (op : BitVec 6) (a b c : RegNum) :
    fieldA (formatRRR op a b c) = a := by
  apply BitVec.eq_of_getLsbD_eq
  intro i hi
  simp [fieldA, formatRRR_bit, hi]
  grind

theorem fieldB_formatRRR (op : BitVec 6) (a b c : RegNum) :
    fieldB (formatRRR op a b c) = b := by
  apply BitVec.eq_of_getLsbD_eq
  intro i hi
  simp [fieldB, formatRRR_bit, hi]
  grind

theorem fieldC_formatRRR (op : BitVec 6) (a b c : RegNum) :
    fieldC (formatRRR op a b c) = c := by
  apply BitVec.eq_of_getLsbD_eq
  intro i hi
  simp [fieldC, formatRRR_bit, hi]
  grind

theorem padRRR_formatRRR (op : BitVec 6) (a b c : RegNum) :
    padRRR (formatRRR op a b c) = 0#11 := by
  apply BitVec.eq_of_getLsbD_eq
  intro i hi
  simp [padRRR, formatRRR_bit, hi]

theorem fieldOp_formatRRI (op : BitVec 6) (a b : RegNum) (k : Half) :
    fieldOp (formatRRI op a b k) = op := by
  apply BitVec.eq_of_getLsbD_eq
  intro i hi
  simp [fieldOp, formatRRI_bit, hi]
  grind

theorem fieldA_formatRRI (op : BitVec 6) (a b : RegNum) (k : Half) :
    fieldA (formatRRI op a b k) = a := by
  apply BitVec.eq_of_getLsbD_eq
  intro i hi
  simp [fieldA, formatRRI_bit, hi]
  grind

theorem fieldB_formatRRI (op : BitVec 6) (a b : RegNum) (k : Half) :
    fieldB (formatRRI op a b k) = b := by
  apply BitVec.eq_of_getLsbD_eq
  intro i hi
  simp [fieldB, formatRRI_bit, hi]
  grind

theorem fieldImm16_formatRRI (op : BitVec 6) (a b : RegNum) (k : Half) :
    fieldImm16 (formatRRI op a b k) = k := by
  apply BitVec.eq_of_getLsbD_eq
  intro i hi
  simp [fieldImm16, formatRRI_bit, hi]

theorem fieldOp_formatRHH (op : BitVec 6) (b : RegNum) (k : Half) :
    fieldOp (formatRHH op b k) = op := by
  apply BitVec.eq_of_getLsbD_eq
  intro i hi
  simp [fieldOp, formatRHH_bit, hi]
  grind

theorem padRHH_formatRHH (op : BitVec 6) (b : RegNum) (k : Half) :
    padRHH (formatRHH op b k) = 0#5 := by
  apply BitVec.eq_of_getLsbD_eq
  intro i hi
  simp [padRHH, formatRHH_bit, hi]
  grind

theorem fieldB_formatRHH (op : BitVec 6) (b : RegNum) (k : Half) :
    fieldB (formatRHH op b k) = b := by
  apply BitVec.eq_of_getLsbD_eq
  intro i hi
  simp [fieldB, formatRHH_bit, hi]
  grind

theorem fieldImm16_formatRHH (op : BitVec 6) (b : RegNum) (k : Half) :
    fieldImm16 (formatRHH op b k) = k := by
  apply BitVec.eq_of_getLsbD_eq
  intro i hi
  simp [fieldImm16, formatRHH_bit, hi]

theorem fieldOp_formatJ (op : BitVec 6) (k : JumpField) :
    fieldOp (formatJ op k) = op := by
  apply BitVec.eq_of_getLsbD_eq
  intro i hi
  simp [fieldOp, formatJ_bit, hi]

theorem fieldImm26_formatJ (op : BitVec 6) (k : JumpField) :
    fieldImm26 (formatJ op k) = k := by
  apply BitVec.eq_of_getLsbD_eq
  intro i hi
  simp [fieldImm26, formatJ_bit, hi]

theorem fieldOp_formatJR (op : BitVec 6) (a : RegNum) :
    fieldOp (formatJR op a) = op := by
  apply BitVec.eq_of_getLsbD_eq
  intro i hi
  simp [fieldOp, formatJR_bit, hi]
  grind

theorem fieldA_formatJR (op : BitVec 6) (a : RegNum) :
    fieldA (formatJR op a) = a := by
  apply BitVec.eq_of_getLsbD_eq
  intro i hi
  simp [fieldA, formatJR_bit, hi]
  grind

theorem padJR_formatJR (op : BitVec 6) (a : RegNum) :
    padJR (formatJR op a) = 0#21 := by
  apply BitVec.eq_of_getLsbD_eq
  intro i hi
  simp [padJR, formatJR_bit, hi]

/-! ### Each word is its own fields -/

/-- A word of a format with no must-be-zero field. -/
theorem word_eq_formatRRI (w : Word) : formatRRI (fieldOp w) (fieldA w) (fieldB w) (fieldImm16 w) = w := by
  apply BitVec.eq_of_getLsbD_eq
  intro i hi
  simp [formatRRI_bit, fieldOp, fieldA, fieldB, fieldImm16]
  grind

theorem word_eq_formatJ (w : Word) : formatJ (fieldOp w) (fieldImm26 w) = w := by
  apply BitVec.eq_of_getLsbD_eq
  intro i hi
  simp [formatJ_bit, fieldOp, fieldImm26]
  grind

theorem word_eq_formatRRR (w : Word) (h : padRRR w = 0#11) :
    formatRRR (fieldOp w) (fieldA w) (fieldB w) (fieldC w) = w := by
  apply BitVec.eq_of_getLsbD_eq
  intro i hi
  have : i < 11 → w.getLsbD i = false := fun hl => by
    simpa [padRRR, hl] using congrArg (fun x => x.getLsbD i) h
  simp [formatRRR_bit, fieldOp, fieldA, fieldB, fieldC]
  grind

theorem word_eq_formatRHH (w : Word) (h : padRHH w = 0#5) :
    formatRHH (fieldOp w) (fieldB w) (fieldImm16 w) = w := by
  apply BitVec.eq_of_getLsbD_eq
  intro i hi
  have : 21 ≤ i → i < 26 → w.getLsbD i = false := fun hl hu => by
    have e : 21 + (i - 21) = i := by omega
    have l : i - 21 < 5 := by omega
    simpa [padRHH, e, l] using congrArg (fun x => x.getLsbD (i - 21)) h
  simp [formatRHH_bit, fieldOp, fieldB, fieldImm16]
  grind

theorem word_eq_formatJR (w : Word) (h : padJR w = 0#21) : formatJR (fieldOp w) (fieldA w) = w := by
  apply BitVec.eq_of_getLsbD_eq
  intro i hi
  have : i < 21 → w.getLsbD i = false := fun hl => by
    simpa [padJR, hl] using congrArg (fun x => x.getLsbD i) h
  simp [formatJR_bit, fieldOp, fieldA]
  grind

/-! ### The must-be-zero check -/

theorem checkPad_off {n : Nat} {pad : BitVec n} {i j : Instr} (h : checkPad false (pad == 0) i = .instr j) :
    pad = 0#n ∧ i = j := by
  unfold checkPad at h
  split at h
  · rename_i hp
    injection h with h
    exact ⟨by simpa using hp, h⟩
  · cases h

theorem checkPad_ne_unknown (b z : Bool) (i : Instr) : checkPad b z i ≠ .unknownOpcode := by
  unfold checkPad
  split <;> simp

theorem checkPad_on (z : Bool) (i : Instr) : checkPad true z i = .instr i := rfl

/-- The opcode as a number (R79). -/
theorem fieldOp_toNat (w : Word) : (fieldOp w).toNat = w.toNat / 2 ^ 26 := by
  have := w.isLt
  simp [fieldOp, BitVec.extractLsb'_toNat, Nat.shiftRight_eq_div_pow]
  omega

end Sys2Proof
end

