-- ==== Sys2Proof/Laws/PerInstr.lean ====
section
/-!
SUPPORT. A statement about the coding of every instruction, made per instruction: the opcode field of the encoded
word is the instruction's opcode, which is one of the opcode map (spec/30_encoding.md R79, R85).
-/

namespace Sys2Proof.Laws.OpcodeField

/-- Bits 31:26 of the word of an instruction hold its opcode (R79, R85). -/
def Statement (i : Instr) : Prop := fieldOp (encode i) = opcode i

theorem add (rd rs1 rs2 : RegNum) : Statement (.add rd rs1 rs2) := fieldOp_formatRRR _ _ _ _

theorem addi (rd rs1 : RegNum) (simm : Half) : Statement (.addi rd rs1 simm) := fieldOp_formatRRI _ _ _ _

theorem sub (rd rs1 rs2 : RegNum) : Statement (.sub rd rs1 rs2) := fieldOp_formatRRR _ _ _ _

theorem subi (rd rs1 : RegNum) (simm : Half) : Statement (.subi rd rs1 simm) := fieldOp_formatRRI _ _ _ _

theorem and (rd rs1 rs2 : RegNum) : Statement (.and rd rs1 rs2) := fieldOp_formatRRR _ _ _ _

theorem andi (rd rs1 : RegNum) (uimm : Half) : Statement (.andi rd rs1 uimm) := fieldOp_formatRRI _ _ _ _

theorem or (rd rs1 rs2 : RegNum) : Statement (.or rd rs1 rs2) := fieldOp_formatRRR _ _ _ _

theorem ori (rd rs1 : RegNum) (uimm : Half) : Statement (.ori rd rs1 uimm) := fieldOp_formatRRI _ _ _ _

theorem xor (rd rs1 rs2 : RegNum) : Statement (.xor rd rs1 rs2) := fieldOp_formatRRR _ _ _ _

theorem xori (rd rs1 : RegNum) (uimm : Half) : Statement (.xori rd rs1 uimm) := fieldOp_formatRRI _ _ _ _

theorem xnor (rd rs1 rs2 : RegNum) : Statement (.xnor rd rs1 rs2) := fieldOp_formatRRR _ _ _ _

theorem xnori (rd rs1 : RegNum) (uimm : Half) : Statement (.xnori rd rs1 uimm) := fieldOp_formatRRI _ _ _ _

theorem ldhi (rd : RegNum) (uimm : Half) : Statement (.ldhi rd uimm) := fieldOp_formatRHH _ _ _

theorem beq (rs1 rs2 : RegNum) (simm : Half) : Statement (.beq rs1 rs2 simm) := fieldOp_formatRRI _ _ _ _

theorem bne (rs1 rs2 : RegNum) (simm : Half) : Statement (.bne rs1 rs2 simm) := fieldOp_formatRRI _ _ _ _

theorem bleu (rs1 rs2 : RegNum) (simm : Half) : Statement (.bleu rs1 rs2 simm) := fieldOp_formatRRI _ _ _ _

theorem bltu (rs1 rs2 : RegNum) (simm : Half) : Statement (.bltu rs1 rs2 simm) := fieldOp_formatRRI _ _ _ _

theorem bgeu (rs1 rs2 : RegNum) (simm : Half) : Statement (.bgeu rs1 rs2 simm) := fieldOp_formatRRI _ _ _ _

theorem bgtu (rs1 rs2 : RegNum) (simm : Half) : Statement (.bgtu rs1 rs2 simm) := fieldOp_formatRRI _ _ _ _

theorem j (simm : JumpField) : Statement (.j simm) := fieldOp_formatJ _ _

theorem jr (rs : RegNum) : Statement (.jr rs) := fieldOp_formatJR _ _

theorem jal (simm : JumpField) : Statement (.jal simm) := fieldOp_formatJ _ _

theorem ldw (rd rs : RegNum) (simm : Half) : Statement (.ldw rd rs simm) := fieldOp_formatRRI _ _ _ _

theorem ldh (rd rs : RegNum) (simm : Half) : Statement (.ldh rd rs simm) := fieldOp_formatRRI _ _ _ _

theorem ldhu (rd rs : RegNum) (simm : Half) : Statement (.ldhu rd rs simm) := fieldOp_formatRRI _ _ _ _

theorem ldb (rd rs : RegNum) (simm : Half) : Statement (.ldb rd rs simm) := fieldOp_formatRRI _ _ _ _

theorem ldbu (rd rs : RegNum) (simm : Half) : Statement (.ldbu rd rs simm) := fieldOp_formatRRI _ _ _ _

theorem stw (rd rs : RegNum) (simm : Half) : Statement (.stw rd rs simm) := fieldOp_formatRRI _ _ _ _

theorem sth (rd rs : RegNum) (simm : Half) : Statement (.sth rd rs simm) := fieldOp_formatRRI _ _ _ _

theorem stb (rd rs : RegNum) (simm : Half) : Statement (.stb rd rs simm) := fieldOp_formatRRI _ _ _ _

end Sys2Proof.Laws.OpcodeField
end

