-- ==== Sys2Proof/Laws/Regions.lean ====
section
/-!
SUPPORT. The address checks in plain arithmetic: alignment (spec/20_memory.md R44), the peripheral windows (R49), and
membership in the regions of MEM_REGIONS (R50).
-/

namespace Sys2Proof.Machine

theorem aligned_iff (w : Width) (a : Word) : aligned w a = true ↔ a.toNat % w.bytes = 0 := by
  simp [aligned]

theorem not_aligned_iff (w : Width) (a : Word) : aligned w a = false ↔ a.toNat % w.bytes ≠ 0 := by
  simp [aligned]

theorem inDisplay_iff (a : Word) :
    inDisplay a = true ↔ 0x30100000 ≤ a.toNat ∧ a.toNat ≤ 0x30103BFF := by
  rw [inDisplay, Bool.and_eq_true, decide_eq_true_eq, decide_eq_true_eq]
  simp only [Config.displayBase, Config.displayLines, Config.displayLineWords]
  omega

theorem inKeyboard_iff (a : Word) :
    inKeyboard a = true ↔ 0x30200000 ≤ a.toNat ∧ a.toNat ≤ 0x30200007 := by
  rw [inKeyboard, Bool.and_eq_true, decide_eq_true_eq, decide_eq_true_eq]
  simp only [Config.keyboardStatus, Config.keyboardData]
  omega

theorem inPeripheral_iff (a : Word) :
    inPeripheral a = true ↔
      (0x30100000 ≤ a.toNat ∧ a.toNat ≤ 0x30103BFF) ∨ (0x30200000 ≤ a.toNat ∧ a.toNat ≤ 0x30200007) := by
  rw [inPeripheral, Bool.or_eq_true, inDisplay_iff, inKeyboard_iff]

/-- The number of the cell at line and column (R186). -/
theorem cellNumber_of_address {a : Word} {line column : Nat}
    (h : a.toNat = 0x30100000 + (line * 128 + column) * 4) : cellNumber a = line * 128 + column := by
  simp only [cellNumber, Config.displayBase, h]
  omega

theorem isCell_iff (k : Nat) : isCell k = true ↔ k / 128 < 30 ∧ k % 128 < 80 := by
  rw [isCell, Bool.and_eq_true, decide_eq_true_eq, decide_eq_true_eq]
  rfl

theorem inRegion_iff (s : State) (a n : Nat) :
    s.inRegion a n = true ↔ ∃ r ∈ s.params.regions, r.base ≤ a ∧ a + n ≤ r.base + r.size := by
  simp [State.inRegion, regionHolds]

theorem inRam_iff (s : State) (a n : Nat) :
    s.inRam a n = true ↔ ∃ r ∈ s.params.regions, r.kind = .ram ∧ r.base ≤ a ∧ a + n ≤ r.base + r.size := by
  simp [State.inRam, regionHolds]

theorem meetsRom_iff (s : State) (a n : Nat) :
    s.meetsRom a n = true ↔ ∃ r ∈ s.params.regions, r.kind = .rom ∧
      ∃ x, a ≤ x ∧ x < a + n ∧ r.base ≤ x ∧ x < r.base + r.size := by
  simp only [State.meetsRom, regionMeets, List.any_eq_true, Bool.and_eq_true, decide_eq_true_eq,
    beq_iff_eq]
  constructor
  · rintro ⟨r, hr, hk, ⟨⟨_, _⟩, _⟩, _⟩
    exact ⟨r, hr, hk, max a r.base, by omega, by omega, by omega, by omega⟩
  · rintro ⟨r, hr, hk, x, _⟩
    exact ⟨r, hr, hk, ⟨⟨by omega, by omega⟩, by omega⟩, by omega⟩

theorem romHolds_iff (p : Params) (a : Nat) :
    romHolds p a = true ↔ ∃ r ∈ p.regions, r.kind = .rom ∧ r.base ≤ a ∧ a + 1 ≤ r.base + r.size := by
  simp [romHolds, regionHolds]

/-- What lies in a RAM region lies in a region. -/
theorem inRegion_of_inRam {s : State} {a n : Nat} (h : s.inRam a n = true) : s.inRegion a n = true := by
  obtain ⟨r, hr, _, h⟩ := (inRam_iff s a n).1 h
  exact (inRegion_iff s a n).2 ⟨r, hr, h⟩

/-- Part of what lies in a region lies in the region. -/
theorem inRegion_part {s : State} {a n b m : Nat} (h : s.inRegion a n = true) (h₁ : a ≤ b)
    (h₂ : b + m ≤ a + n) : s.inRegion b m = true := by
  obtain ⟨r, hr, h⟩ := (inRegion_iff s a n).1 h
  exact (inRegion_iff s b m).2 ⟨r, hr, by omega, by omega⟩

/-- Part of what lies in a RAM region lies in the RAM region. -/
theorem inRam_part {s : State} {a n b m : Nat} (h : s.inRam a n = true) (h₁ : a ≤ b)
    (h₂ : b + m ≤ a + n) : s.inRam b m = true := by
  obtain ⟨r, hr, hk, h⟩ := (inRam_iff s a n).1 h
  exact (inRam_iff s b m).2 ⟨r, hr, hk, by omega, by omega⟩

/-- A region of well-formed parameters holds no address of a peripheral window (R50). -/
theorem not_inPeripheral_of_inRegion {s : State} {a : Word} {n : Nat} (hp : s.params.wf = true) (hn : 0 < n)
    (h : s.inRegion a.toNat n = true) : inPeripheral a = false := by
  obtain ⟨r, hr, h₁, h₂⟩ := (inRegion_iff s a.toNat n).1 h
  simp only [Params.wf, Bool.and_eq_true, List.all_eq_true] at hp
  have hd := hp.2 r hr
  simp only [peripheralWindows, List.mem_cons, List.not_mem_nil, or_false, forall_eq_or_imp, forall_eq,
    Region.apart, Bool.or_eq_true, decide_eq_true_eq] at hd
  rw [← Bool.not_eq_true, inPeripheral_iff]
  omega

end Sys2Proof.Machine
end

