-- ==== Sys2Proof/Laws/Step.lean ====
section
/-!
SUPPORT. What the CPU and the whole machine do in one step, case by case.
-/

namespace Sys2Proof.Machine

/-- Everything a CPU step that answers a next state can do (R216). -/
theorem cpuStep_next {s t : State} (h : s.cpuStep = .next t) :
    s.halted = none ∧
    ((∃ w i, s.fetch s.pc = .done w ∧ decode s.params.ignoreMustBeZero w = .instr i ∧
        exec i s = .next t) ∨
     (∃ w, s.fetch s.pc = .done w ∧ decode s.params.ignoreMustBeZero w = .unknownOpcode ∧
        t = s.raise .unknownOpcode w) ∨
     (∃ c x, s.fetch s.pc = .raised c x ∧ t = s.raise c x)) := by
  unfold State.cpuStep at h
  split at h
  · cases h
  · rename_i hh
    refine ⟨hh, ?_⟩
    split at h
    · rename_i w hw
      unfold State.runWord at h
      split at h
      · exact .inl ⟨w, _, hw, by assumption, h⟩
      · injection h with h
        exact .inr (.inl ⟨w, hw, by assumption, h.symm⟩)
      · cases h
    · injection h with h
      exact .inr (.inr ⟨_, _, by assumption, h.symm⟩)
    · cases h

theorem cpuStep_of_instr {s : State} {w : Word} {i : Instr} (hh : s.halted = none)
    (hf : s.fetch s.pc = .done w) (hd : decode s.params.ignoreMustBeZero w = .instr i) :
    s.cpuStep = exec i s := by
  simp [State.cpuStep, State.runWord, hh, hf, hd]

theorem step_cpu {s : State} {rest : List Turn} (h : s.turns = .cpu :: rest) :
    step s = State.cpuStep { s with turns := rest } := by
  simp [step, h]

theorem step_silent {s : State} (h : s.turns = []) : step s = s.cpuStep := by
  simp [step, h]

theorem step_key {s : State} {c : Byte} {k : Bool} {rest : List Turn} (h : s.turns = .key c k :: rest) :
    step s = .next (State.keyArrives { s with turns := rest } c k) := by
  simp [step, h]

theorem step_reset {s : State} {rest : List Turn} (h : s.turns = .reset :: rest) :
    step s = .next (State.resetEvent { s with turns := rest }) := by
  simp [step, h]

/-- Everything a step that answers a next state can be: a step of the CPU, of the keyboard, or a reset. -/
theorem step_next {s t : State} (h : step s = .next t) :
    (∃ rest, State.cpuStep { s with turns := rest } = .next t) ∨
    (∃ c k rest, t = State.keyArrives { s with turns := rest } c k) ∨
    (∃ rest, t = State.resetEvent { s with turns := rest }) := by
  unfold step at h
  split at h
  · rename_i hs
    exact .inl ⟨[], by rw [← hs]; exact h⟩
  · exact .inl ⟨_, h⟩
  · injection h with h
    exact .inr (.inl ⟨_, _, _, h.symm⟩)
  · injection h with h
    exact .inr (.inr ⟨_, h.symm⟩)

end Sys2Proof.Machine
end

