-- ==== Sys2Proof/Tests/Slice0.lean ====
section
/-!
SUPPORT. The model's own tests. Words, states before and results after are those of spec/95_test_vectors.md, whose row
each test names; the state every test starts from has the memory regions of its section 1 and the pc 0x00001000. The
last part shows, for every statement with hypotheses, a state and operands that meet them.
-/

namespace Sys2Proof.Tests

open Sys2Proof.Machine Sys2Proof.Claims

/-! ### Helpers -/

/-- The machine at launch with some registers set and some bytes in memory. -/
def before (regs : List (RegNum × Word)) (bytes : Memory := []) : State :=
  regs.foldl (fun s c => s.setReg c.1 c.2) (State.launch Config.launchParams bytes [])

/-- What is seen of the next state when the word `w` is the next instruction. -/
def after {α : Type} (w : Nat) (s : State) (see : State → α) : Option α :=
  match step (s.withFetchWord 32 w) with
  | .next t => some (see t)
  | .fault _ => none
  | .refused _ => none

/-- The refusal when the word `w` is the next instruction. -/
def refusal (w : Nat) (s : State) : Option Refusal :=
  match step (s.withFetchWord 32 w) with
  | .next _ => none
  | .fault _ => none
  | .refused r => some r

/-- Register 1, and the pc. -/
def r1pc (t : State) : Word × Word := (t.reg 1, t.pc)

/-- The halted record and the pc. -/
def stop (t : State) : Option Halt × Word := (t.halted, t.pc)

/-- The listed bytes of `n` addresses from 0x3000. -/
def bytesFrom3000 (n : Nat) (t : State) : List (Option Byte) :=
  (List.range n).map (fun k => lookupKey t.mem (0x3000 + k))

/-- The memory of section 7: 80 01 FE 7F 11 22 33 44 at 0x3000. -/
def loadMemory : Memory :=
  [(0x3000, 0x80), (0x3001, 0x01), (0x3002, 0xFE), (0x3003, 0x7F), (0x3004, 0x11), (0x3005, 0x22),
    (0x3006, 0x33), (0x3007, 0x44)]

/-- Before a load of section 7. -/
def beforeLoad : State := before [(1, 0xAAAAAAAA), (2, 0x3004)] loadMemory

/-- Before a store of section 7. -/
def beforeStore : State := before [(1, 0xA1B2C3D4), (2, 0x3004)] loadMemory

/-! ### Decoding: one word of every instruction (section 2.1), unknown and reserved words (section 9) -/

theorem test_decode_add : decode false 0b00000000010000110000100000000000#32 = .instr (.add 1 2 3) := by decide

theorem test_decode_addi : decode false 0b00000100010000010000010011010010#32 = .instr (.addi 1 2 1234) := by decide

theorem test_decode_sub : decode false 0b00001000010000110000100000000000#32 = .instr (.sub 1 2 3) := by decide

theorem test_decode_subi : decode false 0b00001100010000010000010011010010#32 = .instr (.subi 1 2 1234) := by decide

theorem test_decode_and : decode false 0b01000000010000110000100000000000#32 = .instr (.and 1 2 3) := by decide

theorem test_decode_andi : decode false 0b01000100010000010000010011010010#32 = .instr (.andi 1 2 1234) := by decide

theorem test_decode_or : decode false 0b01001000010000110000100000000000#32 = .instr (.or 1 2 3) := by decide

theorem test_decode_ori : decode false 0b01001100010000010000010011010010#32 = .instr (.ori 1 2 1234) := by decide

theorem test_decode_xor : decode false 0b01010000010000110000100000000000#32 = .instr (.xor 1 2 3) := by decide

theorem test_decode_xori : decode false 0b01010100010000010000010011010010#32 = .instr (.xori 1 2 1234) := by decide

theorem test_decode_xnor : decode false 0b01011000010000110000100000000000#32 = .instr (.xnor 1 2 3) := by decide

theorem test_decode_xnori : decode false 0b01011100010000010000010011010010#32 = .instr (.xnori 1 2 1234) := by decide

theorem test_decode_ldhi : decode false 0b01111100000000010000010011010010#32 = .instr (.ldhi 1 1234) := by decide

theorem test_decode_beq : decode false 0b10000000001000100000000000000011#32 = .instr (.beq 1 2 3) := by decide

theorem test_decode_bne : decode false 0b10000100001000100000000000000011#32 = .instr (.bne 1 2 3) := by decide

theorem test_decode_bleu : decode false 0b10001100001000100000000000000011#32 = .instr (.bleu 1 2 3) := by decide

theorem test_decode_bltu : decode false 0b10010100001000100000000000000011#32 = .instr (.bltu 1 2 3) := by decide

theorem test_decode_bgeu : decode false 0b10011100001000100000000000000011#32 = .instr (.bgeu 1 2 3) := by decide

theorem test_decode_bgtu : decode false 0b10100100001000100000000000000011#32 = .instr (.bgtu 1 2 3) := by decide

theorem test_decode_j : decode false 0b10101000000000000000000000000011#32 = .instr (.j 3) := by decide

theorem test_decode_jr : decode false 0b10101111111000000000000000000000#32 = .instr (.jr 31) := by decide

theorem test_decode_jal : decode false 0b10110000000000000000000000000011#32 = .instr (.jal 3) := by decide

theorem test_decode_ldw : decode false 0b11000000010000010000010011010010#32 = .instr (.ldw 1 2 1234) := by decide

theorem test_decode_ldh : decode false 0b11000100010000010000010011010010#32 = .instr (.ldh 1 2 1234) := by decide

theorem test_decode_ldhu : decode false 0b11001000010000010000010011010010#32 = .instr (.ldhu 1 2 1234) := by decide

theorem test_decode_ldb : decode false 0b11001100010000010000010011010010#32 = .instr (.ldb 1 2 1234) := by decide

theorem test_decode_ldbu : decode false 0b11010000010000010000010011010010#32 = .instr (.ldbu 1 2 1234) := by decide

theorem test_decode_stw : decode false 0b11010100010000010000010011010010#32 = .instr (.stw 1 2 1234) := by decide

theorem test_decode_sth : decode false 0b11011000010000010000010011010010#32 = .instr (.sth 1 2 1234) := by decide

theorem test_decode_stb : decode false 0b11011100010000010000010011010010#32 = .instr (.stb 1 2 1234) := by decide

theorem test_encode_is_the_word :
    encode (.add 1 2 3) = 0x00430800#32 ∧ encode (.addi 1 2 1234) = 0x044104D2#32 ∧
      encode (.ldhi 1 1234) = 0x7C0104D2#32 ∧ encode (.beq 1 2 3) = 0x80220003#32 ∧
      encode (.j 3) = 0xA8000003#32 ∧ encode (.jr 31) = 0xAFE00000#32 ∧
      encode (.stw 2 9 0x0204) = 0xD5220204#32 := by decide

theorem test_decode_table_word :
    decodeTableWord 32 0x00430800 = some (.add 1 2 3) ∧ decodeTableWord 32 0xD5220204 = some (.stw 2 9 0x0204) ∧
      decodeTableWord 32 0x10000000 = none ∧ decodeTableWord 32 0x00000001 = none := by decide

theorem test_unknown_opcodes :
    decode false 0x10000000#32 = .unknownOpcode ∧ decode false 0x3C000000#32 = .unknownOpcode ∧
      decode false 0x60000000#32 = .unknownOpcode ∧ decode false 0x78000000#32 = .unknownOpcode ∧
      decode false 0x88000000#32 = .unknownOpcode ∧ decode false 0xA0000000#32 = .unknownOpcode ∧
      decode false 0xB4000000#32 = .unknownOpcode ∧ decode false 0xFFFFFFFF#32 = .unknownOpcode := by decide

theorem test_reserved_encodings :
    decode false 0x00000001#32 = .reservedEncoding ∧ decode false 0x00430C00#32 = .reservedEncoding ∧
      decode false 0x7C210000#32 = .reservedEncoding ∧ decode false 0xAFE00001#32 = .reservedEncoding ∧
      decode false 0xAC010000#32 = .reservedEncoding := by decide

/-- With the switch of R87 on, the must-be-zero fields are ignored. -/
theorem test_switch_ignores_pads :
    decode true 0x00430C00#32 = .instr (.add 1 2 3) ∧ decode true 0x7C210000#32 = .instr (.ldhi 1 0) ∧
      decode true 0xAFE00001#32 = .instr (.jr 31) := by decide

/-! ### WellFormed: an ill-formed term for each check -/

/-- Parameters with the given RESET_PC and regions. -/
def paramsWith (pc : Word) (rs : List Region) : Params :=
  { resetPc := pc, regions := rs, ignoreMustBeZero := false }

theorem test_wf_launch : Config.launchParams.wf = true := by decide

theorem test_wf_reset_pc : (paramsWith 0x1002 []).wf = false := by decide

theorem test_wf_region_base : (paramsWith 0 [{ base := 2, size := 4, kind := .ram }]).wf = false := by decide

theorem test_wf_region_size : (paramsWith 0 [{ base := 4, size := 6, kind := .rom }]).wf = false := by decide

theorem test_wf_region_end :
    (paramsWith 0 [{ base := 0xFFFFFFFC, size := 8, kind := .ram }]).wf = false := by decide

theorem test_wf_regions_overlap :
    (paramsWith 0 [{ base := 0, size := 8, kind := .ram }, { base := 4, size := 8, kind := .rom }]).wf = false := by
  decide

theorem test_wf_region_in_display :
    (paramsWith 0 [{ base := 0x30103BFC, size := 8, kind := .ram }]).wf = false := by decide

theorem test_wf_region_in_keyboard :
    (paramsWith 0 [{ base := 0x30200004, size := 4, kind := .ram }]).wf = false := by decide

/-! ### Arithmetic and logic (sections 3 and 4) -/

/-- A1. -/
theorem test_add_overflow : after 0x00430800 (before [(2, 0x7FFFFFFF), (3, 0x1)]) r1pc = some (0x80000000, 0x1004) := by decide

/-- A4. -/
theorem test_add_same_register : after 0x00210800 (before [(1, 0x40000001)]) r1pc = some (0x80000002, 0x1004) := by decide

/-- A8. -/
theorem test_addi_minus_one : after 0x0441FFFF (before [(2, 0x0)]) r1pc = some (0xFFFFFFFF, 0x1004) := by decide

/-- A9. -/
theorem test_addi_least : after 0x04418000 (before [(2, 0x5)]) r1pc = some (0xFFFF8005, 0x1004) := by decide

/-- A13. -/
theorem test_sub_order : after 0x08430800 (before [(2, 0x3), (3, 0x5)]) r1pc = some (0xFFFFFFFE, 0x1004) := by decide

/-- A17. -/
theorem test_sub_from_zero : after 0x08020800 (before [(2, 0x80000000)]) r1pc = some (0x80000000, 0x1004) := by decide

/-- A19. -/
theorem test_subi_minus_one : after 0x0C41FFFF (before [(2, 0x0)]) r1pc = some (0x00000001, 0x1004) := by decide

/-- A20. -/
theorem test_subi_least : after 0x0C418000 (before [(2, 0x10000)]) r1pc = some (0x00018000, 0x1004) := by decide

/-- B1. -/
theorem test_and : after 0x40430800 (before [(2, 0xFF00FF00), (3, 0xF0F0F0F)]) r1pc = some (0x0F000F00, 0x1004) := by decide

/-- B2. -/
theorem test_or : after 0x48430800 (before [(2, 0xFF00FF00), (3, 0xF0F0F0F)]) r1pc = some (0xFF0FFF0F, 0x1004) := by decide

/-- B3. -/
theorem test_xor : after 0x50430800 (before [(2, 0xFF00FF00), (3, 0xF0F0F0F)]) r1pc = some (0xF00FF00F, 0x1004) := by decide

/-- B4. -/
theorem test_xnor : after 0x58430800 (before [(2, 0xFF00FF00), (3, 0xF0F0F0F)]) r1pc = some (0x0FF00FF0, 0x1004) := by decide

/-- B15. -/
theorem test_andi_zero_extends : after 0x44418000 (before [(2, 0x12345678)]) r1pc = some (0x00000000, 0x1004) := by decide

/-- B15. -/
theorem test_ori_zero_extends : after 0x4C418000 (before [(2, 0x12345678)]) r1pc = some (0x1234D678, 0x1004) := by decide

/-- B15. -/
theorem test_xori_zero_extends : after 0x54418000 (before [(2, 0x12345678)]) r1pc = some (0x1234D678, 0x1004) := by decide

/-- B15. -/
theorem test_xnori_zero_extends : after 0x5C418000 (before [(2, 0x12345678)]) r1pc = some (0xEDCB2987, 0x1004) := by decide

/-- B20. -/
theorem test_ldhi : after 0x7C011234 (before [(1, 0xDEADBEEF)]) r1pc = some (0x12340000, 0x1004) := by decide

/-- A5. -/
theorem test_register_zero_discards : after 0x00430000 (before [(2, 0x5), (3, 0x6)]) (fun t => (t.reg 0, t.pc)) = some (0x00000000, 0x1004) := by decide

/-! ### Branches and jumps (sections 5 and 6) -/

/-- Section 5. -/
theorem test_beq : after 0x80220003 (before [(1, 0x80000000), (2, 0x80000000)]) State.pc = some 0x1010 := by decide

/-- Section 5. -/
theorem test_bne : after 0x84220003 (before [(1, 0x1), (2, 0x2)]) State.pc = some 0x1010 := by decide

/-- Section 5. -/
theorem test_bleu : after 0x8C220003 (before [(1, 0xFFFFFFFF), (2, 0x0)]) State.pc = some 0x1004 := by decide

/-- Section 5. -/
theorem test_bltu : after 0x94220003 (before [(1, 0x7FFFFFFF), (2, 0x80000000)]) State.pc = some 0x1010 := by decide

/-- Section 5. -/
theorem test_bgeu : after 0x9C220003 (before [(1, 0x0), (2, 0xFFFFFFFF)]) State.pc = some 0x1004 := by decide

/-- Section 5. -/
theorem test_bgtu : after 0xA4220003 (before [(1, 0x80000000), (2, 0x7FFFFFFF)]) State.pc = some 0x1010 := by decide

/-- Section 5. -/
theorem test_beq_other : after 0x80220003 (before [(1, 0x1), (2, 0x2)]) State.pc = some 0x1004 := by decide

/-- Section 5. -/
theorem test_bne_other : after 0x84220003 (before [(1, 0x0), (2, 0x0)]) State.pc = some 0x1004 := by decide

/-- Section 5. -/
theorem test_bleu_other : after 0x8C220003 (before [(1, 0x80000000), (2, 0x80000000)]) State.pc = some 0x1010 := by decide

/-- Section 5. -/
theorem test_bltu_other : after 0x94220003 (before [(1, 0x0), (2, 0x0)]) State.pc = some 0x1004 := by decide

/-- Section 5. -/
theorem test_bgeu_other : after 0x9C220003 (before [(1, 0x0), (2, 0x0)]) State.pc = some 0x1010 := by decide

/-- Section 5. -/
theorem test_bgtu_other : after 0xA4220003 (before [(1, 0x0), (2, 0x0)]) State.pc = some 0x1004 := by decide

/-- J5. -/
theorem test_j_backward : after 0xAA000000 (before []) State.pc = some 0xF8001004 := by decide

/-- J2. -/
theorem test_j_to_itself : after 0xABFFFFFF (before []) State.pc = some 0x1000 := by decide

/-- J13. -/
theorem test_jal_links : after 0xB1FFFFFF (before [(31, 0x11111111)]) (fun t => (t.reg 31, t.pc)) = some (0x1004, 0x08001000) := by decide

/-- J18. -/
theorem test_jr : after 0xACA00000 (before [(5, 0xFFFFFFFC)]) State.pc = some 0xFFFFFFFC := by decide

/-- J19. -/
theorem test_jr_misaligned : after 0xACA00000 (before [(5, 0x1002)]) stop = some (none, 0x1002) := by decide

/-! ### Loads and stores (section 7) -/

/-- L1. -/
theorem test_ldw : after 0xC041FFFC (beforeLoad) r1pc = some (0x8001FE7F, 0x1004) := by decide

/-- L7. -/
theorem test_ldh : after 0xC441FFFE (beforeLoad) r1pc = some (0xFFFFFE7F, 0x1004) := by decide

/-- L10. -/
theorem test_ldh_misaligned : after 0xC441FFFF (beforeLoad) stop = some (some { cause := .misalignedData, atPc := 0x1000, info := 0x3003 }, 0x1000) := by decide

/-- L11. -/
theorem test_ldhu : after 0xC841FFFC (beforeLoad) r1pc = some (0x00008001, 0x1004) := by decide

/-- L15. -/
theorem test_ldb : after 0xCC41FFFC (beforeLoad) r1pc = some (0xFFFFFF80, 0x1004) := by decide

/-- L23. -/
theorem test_ldb_same_register : after 0xCC42FFFC (beforeLoad) (fun t => t.reg 2) = some 0xFFFFFF80 := by decide

/-- L21. -/
theorem test_ldbu : after 0xD041FFFE (beforeLoad) r1pc = some (0x000000FE, 0x1004) := by decide

/-- S2. -/
theorem test_stw : after 0xD4410000 (beforeStore) (bytesFrom3000 8) = some ([0x80, 0x01, 0xFE, 0x7F, 0xA1, 0xB2, 0xC3, 0xD4].map some) := by decide

/-- S6. -/
theorem test_sth : after 0xD841FFFE (beforeStore) (bytesFrom3000 8) = some ([0x80, 0x01, 0xC3, 0xD4, 0x11, 0x22, 0x33, 0x44].map some) := by decide

/-- S12. -/
theorem test_stb : after 0xDC41FFFF (beforeStore) (bytesFrom3000 8) = some ([0x80, 0x01, 0xFE, 0xD4, 0x11, 0x22, 0x33, 0x44].map some) := by decide

/-- M6. -/
theorem test_stw_rom : after 0xD4410000 (before [(2, 0x20000)]) stop = some (some { cause := .romWrite, atPc := 0x1000, info := 0x20000 }, 0x1000) := by decide

/-- M8. -/
theorem test_ldw_unmapped_misaligned : after 0xC0410002 (before [(2, 0x10000)]) stop = some (some { cause := .misalignedData, atPc := 0x1000, info := 0x10002 }, 0x1000) := by decide

/-- M7. -/
theorem test_stb_rom : after 0xDC410003 (before [(2, 0x20000)]) stop = some (some { cause := .romWrite, atPc := 0x1000, info := 0x20003 }, 0x1000) := by decide

/-- S8. -/
theorem test_sth_misaligned : after 0xD8410001 (beforeStore) stop = some (some { cause := .misalignedData, atPc := 0x1000, info := 0x3005 }, 0x1000) := by decide

/-! ### Peripherals, halted state, reset (sections 8 and 9) -/

/-- D3. -/
theorem test_display_last_cell :
    after 0xD4413B3C (before [(1, 0x12345678), (2, 0x30100000)]) (fun t => (t.cell 29 79, t.shownChar 29 79)) =
      some (0x12345678, 0x78) := by decide

/-- D4. -/
theorem test_display_column_80 :
    refusal 0xD4410140 (before [(1, 0x58), (2, 0x30100000)]) = some .displayAccess := by decide

/-- K3: the data read clears kbd_ready. -/
theorem test_keyboard_data_read :
    after 0xC0410004 { before [(2, 0x30200000)] with kbdReady := true, kbdChar := 0x41 } State.kbdReady =
      some false := by decide

/-- K2: the status read does not. -/
theorem test_keyboard_status_read :
    after 0xC0410000 { before [(2, 0x30200000)] with kbdReady := true, kbdChar := 0x41 } State.kbdReady =
      some true := by decide

/-- K6. -/
theorem test_keyboard_byte_read :
    refusal 0xD0410007 (before [(2, 0x30200000)]) = some .subWordPeripheralAccess := by decide

/-- K7. -/
theorem test_keyboard_write : refusal 0xD4410000 (before [(2, 0x30200000)]) = some .keyboardAccess := by decide

/-- U5. -/
theorem test_unknown_opcode_halts :
    after 0x88000000 (before []) stop =
      some (some { cause := .unknownOpcode, atPc := 0x1000, info := 0x88000000 }, 0x1000) := by decide

/-- U15. -/
theorem test_reserved_refused : refusal 0x7C210000 (before []) = some .reservedEncoding := by decide

/-- K11, K12: both outcomes of an arrival while a character is pending. -/
theorem test_keyboard_arrival :
    ((State.reset.keyArrives 0x41 false).kbdChar, ((State.reset.keyArrives 0x41 false).keyArrives 0x42 false).kbdChar,
      ((State.reset.keyArrives 0x41 false).keyArrives 0x42 true).kbdChar) = (0x41, 0x41, 0x42) := by decide

/-! ### Witnesses: states and operands that meet the hypotheses of the statements -/

theorem cpuTurn_of_silent {s : State} (h : s.halted = none) (ht : s.turns = []) : CpuTurn s := ⟨h, .inl ht⟩

theorem mapped_of {s : State} {a n : Nat} (h : s.inRegion a n = true) : Mapped s a n :=
  let ⟨r, hr, h⟩ := (inRegion_iff s a n).1 h
  ⟨r, hr, trivial, h⟩

theorem not_mapped_of {s : State} {a n : Nat} (h : s.inRegion a n = false) : ¬Mapped s a n :=
  fun ⟨r, hr, _, hb⟩ => absurd ((inRegion_iff s a n).2 ⟨r, hr, hb⟩) (by simp [h])

theorem inRam_of {s : State} {a n : Nat} (h : s.inRam a n = true) : InRam s a n := (inRam_iff s a n).1 h

theorem not_inRam_of {s : State} {a n : Nat} (h : s.inRam a n = false) : ¬InRam s a n :=
  fun hr => absurd ((inRam_iff s a n).2 hr) (by simp [h])

theorem touchesRom_of {s : State} {a n : Nat} (h : s.meetsRom a n = true) : TouchesRom s a n :=
  (meetsRom_iff s a n).1 h

theorem not_touchesRom_of {s : State} {a n : Nat} (h : s.meetsRom a n = false) : ¬TouchesRom s a n :=
  fun hr => absurd ((meetsRom_iff s a n).2 hr) (by simp [h])

theorem not_inWindow_of {a : Word} (h : inPeripheral a = false) : ¬InWindow a.toNat :=
  fun hw => absurd ((inPeripheral_iff a).2 hw) (by simp [h])

theorem inWindow_of {a : Word} (h : inPeripheral a = true) : InWindow a.toNat := (inPeripheral_iff a).1 h

/-- The hypotheses the statements about a fetched word share, at a state about to fetch `w`. -/
theorem fetches (w : Nat) (hw : (State.reset.withFetchWord 32 w).pc = 0x1000 := by rfl)
    (hr : (State.reset.withFetchWord 32 w).inRegion 0x1000 4 = true := by rfl) :
    CpuTurn (State.reset.withFetchWord 32 w) ∧ (State.reset.withFetchWord 32 w).pc.toNat % 4 = 0 ∧
      Mapped (State.reset.withFetchWord 32 w) (State.reset.withFetchWord 32 w).pc.toNat 4 ∧
      ¬InWindow (State.reset.withFetchWord 32 w).pc.toNat := by
  refine ⟨cpuTurn_of_silent rfl rfl, ?_, ?_, ?_⟩ <;> rw [hw]
  · decide
  · exact mapped_of hr
  · exact not_inWindow_of (by decide)

theorem witness_EncodeOfDecodeIsTheWord : decode false 0x00430800#32 = .instr (.add 1 2 3) := by decide

theorem witness_StepRunsTheDecodedInstruction :
    CpuTurn (State.reset.withFetchWord 32 0x00430800) ∧
      decode false (wordAt (State.reset.withFetchWord 32 0x00430800) 0x1000) = .instr (.add 1 2 3) :=
  ⟨(fetches _).1, by decide⟩

theorem witness_UnknownOpcodeHaltsTheMachine :
    CpuTurn (State.reset.withFetchWord 32 0xE0000000) ∧
      UnknownOp ((wordAt (State.reset.withFetchWord 32 0xE0000000) 0x1000).toNat / 2 ^ 26) :=
  ⟨(fetches _).1, by unfold UnknownOp; decide⟩

theorem witness_ReservedEncodingIsRefused :
    CpuTurn (State.reset.withFetchWord 32 1) ∧
      decode false (wordAt (State.reset.withFetchWord 32 1) 0x1000) = .reservedEncoding :=
  ⟨(fetches _).1, by decide⟩

/-- A machine whose pc is not a multiple of 4. -/
def oddPc : State := { State.reset with pc := 0x1001 }

theorem witness_MisalignedFetchHaltsTheMachine : CpuTurn oddPc ∧ oddPc.pc.toNat % 4 ≠ 0 :=
  ⟨cpuTurn_of_silent rfl rfl, by decide⟩

theorem witness_FetchFollowsItsOrder :
    State.reset.params.wf = true ∧ (0xFFFF#32).toNat % 4 ≠ 0 ∧ Mapped State.reset 0xFFFC 4 ∧
      ¬Mapped State.reset 0x10000 4 ∧ InWindow (0x30103BFC#32).toNat ∧ InWindow (0x30200000#32).toNat :=
  ⟨by decide, by decide, mapped_of (by decide), not_mapped_of (by decide), inWindow_of (by decide),
    inWindow_of (by decide)⟩

/-- A halted machine with the given order of steps. -/
def halted (turns : List Turn) : State :=
  { State.reset with halted := some { cause := .romWrite, atPc := 0x1000, info := 0x20000 }, turns := turns }

theorem witness_HaltedMachineHasNoCpuStep :
    (halted []).halted ≠ none ∧ (halted [.cpu]).turns.head? = some .cpu ∧
      (∃ t, step (halted [.key 0x41 true]) = .next t) ∧ (∃ t, step (halted [.reset]) = .next t) :=
  ⟨by decide, rfl, ⟨_, rfl⟩, ⟨_, rfl⟩⟩

theorem witness_RaiseIsPrecise :
    CpuTurn oddPc ∧ ∃ t h, step oddPc = .next t ∧ t.halted = some h :=
  ⟨cpuTurn_of_silent rfl rfl, _, _, rfl, rfl⟩

theorem witness_KeyboardArrivalIsASeparateStep :
    (halted [.key 0x41 true]).turns = [.key 0x41 true] ∧ (halted [.key 0x41 true]).kbdReady = false ∧
      ({ State.reset with kbdReady := true, turns := [.key 0x41 true] } : State).kbdReady = true ∧
      ({ State.reset with kbdReady := true, turns := [.key 0x41 false] } : State).turns = [.key 0x41 false] :=
  ⟨rfl, rfl, rfl, rfl⟩

/-- A machine about to be reset, with bytes at both ends of its ROM and one in RAM. -/
def beforeReset : State :=
  State.launch Config.launchParams [(0x10, 1), (0x20000, 0xCA), (0x20FFF, 0xFE)] [.reset]

theorem witness_ResetEventLeaves :
    beforeReset.turns = [.reset] ∧ ∃ r ∈ beforeReset.params.regions, r.kind = .rom ∧ r.base ≤ 0x20000 ∧
      0x20FFF < r.base + r.size ∧ lookupKey beforeReset.mem 0x20000 = some 0xCA ∧
      lookupKey beforeReset.mem 0x20FFF = some 0xFE := by decide

theorem witness_StepKeepsTheParameters : ∃ t, step beforeReset = .next t := ⟨_, rfl⟩

theorem witness_StepKeepsWellFormed : beforeReset.wf = true ∧ ∃ t, step beforeReset = .next t :=
  ⟨by decide, _, rfl⟩

theorem witness_LaunchStateIsReset : lookupKey ([(0x10, 1)] : Memory) 0x10 = some 1 := by decide

theorem witness_OnlyJrMisalignsThePc :
    (State.reset.pc.toNat % 4 = 0 ∧ (∃ t, exec (.j 3) State.reset = .next t)) ∧
      CpuTurn (before [(5, 0x1002)]) ∧ ((before [(5, 0x1002)]).reg 5).toNat % 4 ≠ 0 :=
  ⟨⟨by decide, _, rfl⟩, cpuTurn_of_silent rfl rfl, by decide⟩

theorem witness_RegisterZeroIsHardwired : ea (before [(2, 0x30200000)]) 2 4 = 0x30200004#32 := by decide

theorem witness_OnlyTheDestinationRegisterChanges :
    ∃ t, exec (.jal 3) State.reset = .next t ∧ t.reg 31 ≠ State.reset.reg 31 := ⟨_, rfl, by decide⟩

theorem witness_OnlyLoadsAndStoresReachMemory :
    (∃ t, exec (.j 3) State.reset = .next t) ∧ stores State.reset (.j 3) = none ∧
      accesses State.reset (.j 3) = none := ⟨⟨_, rfl⟩, rfl, rfl⟩

/-- A machine with a character pending and register 2 at the keyboard. -/
def keyWaiting : State := { before [(2, 0x30200000)] with kbdReady := true, kbdChar := 0x41 }

theorem witness_OnlyTheDataRegisterReadHasASideEffect :
    ∃ t, exec (.ldw 1 2 4) keyWaiting = .next t ∧ t.kbdReady ≠ keyWaiting.kbdReady := ⟨_, rfl, by decide⟩

theorem witness_ComputingInstructionsNeverRaise : accesses State.reset (.beq 1 2 3) = none := rfl

theorem witness_OnlyWindowAccessesAreRefused :
    exec (.ldbu 1 2 7) keyWaiting = .refused .subWordPeripheralAccess ∧
      exec (.ldw 1 2 0) (before [(2, 0x30103BFC)]) = .refused .displayAccess ∧
      exec (.stw 1 2 4) keyWaiting = .refused .keyboardAccess := ⟨rfl, rfl, rfl⟩

theorem witness_LdhiThenOriLoadsAnyConstant : (31#5 : RegNum) ≠ 0#5 := by decide

theorem witness_BranchConditionsAreConsistent : (0x8000#16 : Half) ≠ 0#16 := by decide

/-- Register 2 holds the last address of the low RAM, register 3 the last address of all. -/
def atEdges : State := before [(2, 0xFFFF), (3, 0xFFFFFFFF)]

theorem witness_LoadsReadMemory :
    ¬InWindow (ea atEdges 2 0xFFFD).toNat ∧ Mapped atEdges (ea atEdges 2 0xFFFD).toNat 4 ∧
      (ea atEdges 2 0xFFFD).toNat % 4 = 0 ∧ Mapped atEdges (ea atEdges 3 0xFFFF).toNat 2 ∧
      (ea atEdges 3 0xFFFF).toNat % 2 = 0 ∧ Mapped atEdges (ea atEdges 3 0).toNat 1 :=
  ⟨not_inWindow_of (by decide), mapped_of (by decide), by decide, mapped_of (by decide), by decide,
    mapped_of (by decide)⟩

theorem witness_StoresWriteRam :
    ¬InWindow (ea atEdges 2 0xFFFD).toNat ∧ InRam atEdges (ea atEdges 2 0xFFFD).toNat 4 ∧
      (ea atEdges 2 0xFFFD).toNat % 4 = 0 ∧ InRam atEdges (ea atEdges 3 0xFFFF).toNat 2 ∧
      (ea atEdges 3 0xFFFF).toNat % 2 = 0 ∧ InRam atEdges (ea atEdges 3 0).toNat 1 :=
  ⟨not_inWindow_of (by decide), inRam_of (by decide), by decide, inRam_of (by decide), by decide,
    inRam_of (by decide)⟩

theorem witness_LoadFrame :
    (Instr.ldb 1 2 0) ∈ [.ldw 1 2 0, .ldh 1 2 0, .ldhu 1 2 0, .ldb 1 2 0, Instr.ldbu 1 2 0] ∧
      ∃ t, exec (.ldb 1 2 0) atEdges = .next t := ⟨by decide, _, rfl⟩

theorem witness_StoreFrame :
    stores atEdges (.stb 1 2 0) = some (1, 0xFFFF#32) ∧ ∃ t, exec (.stb 1 2 0) atEdges = .next t :=
  ⟨by decide, _, rfl⟩

theorem witness_MisalignedAccessesHaltTheMachine :
    (accesses atEdges (.stw 1 2 0) = some (4, 0xFFFF#32) ∧ (0xFFFF#32).toNat % 4 ≠ 0) ∧
      (accesses atEdges (.ldh 1 3 0) = some (2, 0xFFFFFFFF#32) ∧ (0xFFFFFFFF#32).toNat % 2 ≠ 0) ∧
      accesses atEdges (.ldb 1 2 1) = some (1, 0x10000#32) ∧
      ∃ t h, exec (.ldb 1 2 1) atEdges = .next t ∧ t.halted = some h :=
  ⟨⟨by decide, by decide⟩, ⟨by decide, by decide⟩, by decide, _, _, rfl, rfl⟩

theorem witness_UnmappedLoadsHaltTheMachine :
    loads atEdges (.ldw 1 2 1) = some (4, 0x10000#32) ∧ (0x10000#32).toNat % 4 = 0 ∧
      ¬InWindow (0x10000#32).toNat ∧ ¬Mapped atEdges (0x10000#32).toNat 4 ∧
      loads atEdges (.ldbu 1 2 1) = some (1, 0x10000#32) ∧ ¬Mapped atEdges (0x10000#32).toNat 1 :=
  ⟨by decide, by decide, not_inWindow_of (by decide), not_mapped_of (by decide), by decide,
    not_mapped_of (by decide)⟩

/-- Register 2 holds the last word of ROM, register 3 the word after it. -/
def atRom : State := before [(2, 0x20FFC), (3, 0x21000)]

theorem witness_StoresOutsideRamHaltTheMachine :
    (stores atRom (.stw 1 2 0) = some (4, 0x20FFC#32) ∧ ¬InWindow (0x20FFC#32).toNat ∧
      ¬InRam atRom (0x20FFC#32).toNat 4 ∧ TouchesRom atRom (0x20FFC#32).toNat 4) ∧
      (stores atRom (.stb 1 3 0) = some (1, 0x21000#32) ∧ ¬InWindow (0x21000#32).toNat ∧
        ¬InRam atRom (0x21000#32).toNat 1 ∧ ¬TouchesRom atRom (0x21000#32).toNat 1) :=
  ⟨⟨by decide, not_inWindow_of (by decide), not_inRam_of (by decide), touchesRom_of (by decide)⟩,
    by decide, not_inWindow_of (by decide), not_inRam_of (by decide), not_touchesRom_of (by decide)⟩

theorem witness_MixedWidthAccessesAreBigEndian :
    (0xFFFFFFFC#32).toNat % 4 = 0 ∧ ¬InWindow (0xFFFFFFFC#32).toNat ∧
      InRam State.reset (0xFFFFFFFC#32).toNat 4 :=
  ⟨by decide, not_inWindow_of (by decide), inRam_of (by decide)⟩

/-- About to store the word 0 (ADD of register 0) just after the store itself. -/
def storesAhead : State := before [(2, 0x1004)]

theorem witness_FetchSeesEarlierStores :
    ¬InWindow (ea storesAhead 2 0).toNat ∧ InRam storesAhead (ea storesAhead 2 0).toNat 4 ∧
      ∃ t, exec (.stw 1 2 0) storesAhead = .next t ∧ CpuTurn t ∧ t.pc = ea storesAhead 2 0 ∧
        decode t.params.ignoreMustBeZero (storesAhead.reg 1) = .instr (.add 0 0 0) :=
  ⟨not_inWindow_of (by decide), inRam_of (by decide), _, rfl, cpuTurn_of_silent rfl rfl, by decide, by decide⟩

/-- Register 2 holds the address of the last cell, register 3 that of line 0, column 80. -/
def atDisplay : State := before [(2, 0x30103B3C), (3, 0x30100140), (4, 0x30103C00)]

theorem witness_StoringAWordShowsACharacter :
    (ea atDisplay 2 0).toNat = 0x30100000 + (29 * 128 + 79) * 4 := by decide

theorem witness_OtherDisplayAccessesAreRefused :
    InDisplayWindow (ea atDisplay 2 0).toNat ∧ InDisplayWindow (ea atDisplay 3 0).toNat ∧
      ((ea atDisplay 3 0).toNat - 0x30100000) / 4 % 128 ≥ 80 ∧ (ea atDisplay 4 0).toNat = 0x30103C00 ∧
      (ea atDisplay 4 0).toNat % 4 = 0 ∧ ¬Mapped atDisplay (ea atDisplay 4 0).toNat 4 :=
  ⟨(inDisplay_iff _).1 (by decide), (inDisplay_iff _).1 (by decide), by decide, by decide, by decide,
    not_mapped_of (by decide)⟩

theorem witness_KeyboardStatusRead : ea keyWaiting 2 0 = 0x30200000#32 := by decide

theorem witness_KeyboardDataRead : ea keyWaiting 2 4 = 0x30200004#32 ∧ keyWaiting.kbdReady = true := by decide

theorem witness_KeyboardWritesAreRefused :
    ea keyWaiting 2 0 = 0x30200000#32 ∧ ea keyWaiting 2 4 = 0x30200004#32 ∧ ea keyWaiting 2 8 = 0x30200008#32 ∧
      ¬Mapped keyWaiting 0x30200008 4 := ⟨by decide, by decide, by decide, not_mapped_of (by decide)⟩

theorem witness_SubWordPeripheralAccessesAreRefused :
    accesses keyWaiting (.ldbu 1 2 7) = some (1, 0x30200007#32) ∧ InWindow (0x30200007#32).toNat ∧
      accesses atDisplay (.sth 1 2 0) = some (2, 0x30103B3C#32) ∧ (0x30103B3C#32).toNat % 2 = 0 ∧
      InWindow (0x30103B3C#32).toNat :=
  ⟨by decide, inWindow_of (by decide), by decide, by decide, inWindow_of (by decide)⟩

theorem witness_StatusAfterDataReadIsNotReady :
    ∃ t u, ea keyWaiting 2 4 = 0x30200004#32 ∧ exec (.ldw 1 2 4) keyWaiting = .next t ∧
      ea t 2 0 = 0x30200000#32 ∧ exec (.ldw 3 2 0) t = .next u :=
  ⟨_, _, by decide, rfl, by decide, rfl⟩

theorem witness_EndedRunsReachEndPc :
    endsWithin 0x1000 0 State.reset = true ∧
      endsWithin 0x1004 1 (State.reset.withFetchWord 32 0x00000000) = true := by decide

end Sys2Proof.Tests
end

/-!
The offsets of branches and jumps (spec/30_encoding.md R82, R83). One fact carries both: appending zero bits
before the sign extension or shifting after it is the same at every width, so an offset is a signed number
with two zero bits below it, whose value needs no wrap.
-/

namespace Sys2Proof.Machine

/-! ### Any field width -/

/-- "Shifted to the left" after the extension (R82, R83) is appending the zeros before it: both repeat the same
sign bit. -/
theorem signExtend_shiftLeft_eq_signExtend_append {w : Nat} (v n : Nat) (k : BitVec w) :
    k.signExtend v <<< n = (k ++ 0#n).signExtend v := by
  have sameSign : (k ++ 0#n).msb = k.msb := by
    rw [BitVec.msb_append]
    cases w with
    | zero => simp [BitVec.of_length_zero]
    | succ w => simp
  ext i hi
  simp only [BitVec.getElem_shiftLeft, BitVec.getElem_signExtend, BitVec.getElem_append, sameSign]
  by_cases low : i < n
  · have : i < w + n := by omega
    simp [low, this]
  · have : i - n < w ↔ i < w + n := by omega
    simp [low, this]

/-- With room for the shift nothing is lost: the value is the signed field times a power of two. -/
theorem toInt_signExtend_shiftLeft {w v n : Nat} (room : w + n ≤ v) (k : BitVec w) :
    (k.signExtend v <<< n).toInt = 2 ^ n * k.toInt := by
  rw [signExtend_shiftLeft_eq_signExtend_append, BitVec.toInt_signExtend_of_le room, BitVec.toInt_append_zero]

/-! ### The branch offset (R82) and the jump offset (R83) -/

theorem branchOffset_eq_signExtend_append (k : Half) : branchOffset k = (k ++ 0#2).signExtend 32 :=
  signExtend_shiftLeft_eq_signExtend_append 32 2 k

theorem branchOffset_toInt (k : Half) : (branchOffset k).toInt = 4 * k.toInt :=
  toInt_signExtend_shiftLeft (by decide) k

theorem branchOffset_range (k : Half) :
    -131072 ≤ (branchOffset k).toInt ∧ (branchOffset k).toInt ≤ 131068 := by
  have low := k.le_toInt
  have high := k.toInt_lt
  rw [branchOffset_toInt]
  omega

theorem jumpOffset_eq_signExtend_append (k : JumpField) : jumpOffset k = (k ++ 0#2).signExtend 32 :=
  signExtend_shiftLeft_eq_signExtend_append 32 2 k

theorem jumpOffset_toInt (k : JumpField) : (jumpOffset k).toInt = 4 * k.toInt :=
  toInt_signExtend_shiftLeft (by decide) k

theorem jumpOffset_range (k : JumpField) :
    -134217728 ≤ (jumpOffset k).toInt ∧ (jumpOffset k).toInt ≤ 134217724 := by
  have low := k.le_toInt
  have high := k.toInt_lt
  rw [jumpOffset_toInt]
  omega

/-! ### The targets: relative to the instruction that follows -/

theorem branchTarget_eq (pc : Word) (k : Half) : branchTarget pc k = pc + 4#32 + branchOffset k := rfl

theorem jumpTarget_eq (pc : Word) (k : JumpField) : jumpTarget pc k = pc + 4#32 + jumpOffset k := rfl

/-- Settles O34: for both field widths the appended form, the value and the range of the offset, then the targets. -/
theorem offsetsAreFourTimesTheField : Obligations.OffsetsAreFourTimesTheField :=
  ⟨fun k => ⟨branchOffset_eq_signExtend_append k, branchOffset_toInt k, branchOffset_range k⟩,
    fun k => ⟨jumpOffset_eq_signExtend_append k, jumpOffset_toInt k, jumpOffset_range k⟩,
    branchTarget_eq, jumpTarget_eq⟩

end Sys2Proof.Machine

/-!
The arithmetic instructions (spec/40_arithmetic.md R100 to R103). All four end in `State.writeBack`, so what such an
instruction leaves is said once, for any value; per instruction there remain its meaning as a write-back and the
value, where only SUB needs an argument: the complement law of R102.
-/

namespace Sys2Proof.Machine

open Sys2Proof.Claims

/-! ### What a write-back leaves -/

@[simp] theorem byteAt_writeBack (s : State) (rd : RegNum) (v : Word) (a : Nat) :
    (s.writeBack rd v).byteAt a = s.byteAt a := rfl

/-- Register 0 may be the destination: its write is discarded (R21). -/
theorem writesRegister_writeBack (s : State) (rd : RegNum) (v : Word) :
    WritesRegister s (s.writeBack rd v) rd v := by
  intro r
  rw [reg_writeBack]
  by_cases h : r = rd
  · rw [h]
  · simp [h]

theorem sameElsewhere_writeBack (s : State) (rd : RegNum) (v : Word) :
    SameElsewhere s (s.writeBack rd v) := by
  simp [SameElsewhere]

theorem computes_writeBack (s : State) (rd : RegNum) (v : Word) : Computes s (s.writeBack rd v) rd v :=
  ⟨writesRegister_writeBack s rd v, writeBack_pc s rd v, byteAt_writeBack s rd v,
    sameElsewhere_writeBack s rd v⟩

/-- An instruction whose meaning is a write-back computes the value it writes. -/
theorem exec_computes_of_writeBack {i : Instr} {s : State} {rd : RegNum} {v : Word}
    (h : exec i s = .next (s.writeBack rd v)) : ∃ t, exec i s = .next t ∧ Computes s t rd v :=
  ⟨_, h, computes_writeBack s rd v⟩

/-! ### The meanings as write-backs -/

theorem exec_add (rd rs1 rs2 : RegNum) (s : State) :
    exec (.add rd rs1 rs2) s = .next (s.writeBack rd (s.reg rs1 + s.reg rs2)) := rfl

theorem exec_addi (rd rs1 : RegNum) (k : Half) (s : State) :
    exec (.addi rd rs1 k) s = .next (s.writeBack rd (s.reg rs1 + k.signExtend 32)) := rfl

theorem exec_sub (rd rs1 rs2 : RegNum) (s : State) :
    exec (.sub rd rs1 rs2) s = .next (s.writeBack rd (s.reg rs1 - s.reg rs2)) := rfl

theorem exec_subi (rd rs1 : RegNum) (k : Half) (s : State) :
    exec (.subi rd rs1 k) s = .next (s.writeBack rd (s.reg rs1 - k.signExtend 32)) := rfl

/-- "Equal to `x[rs1] + ~x[rs2] + 1`" (R102): negation is complement plus one. -/
theorem sub_eq_add_not_add_one (x y : Word) : x - y = x + ~~~y + 1#32 := by
  rw [BitVec.sub_eq_add_neg, BitVec.neg_eq_not_add, BitVec.add_assoc]

theorem exec_sub_complement (rd rs1 rs2 : RegNum) (s : State) :
    exec (.sub rd rs1 rs2) s = .next (s.writeBack rd (s.reg rs1 + ~~~(s.reg rs2) + 1#32)) := by
  rw [exec_sub, sub_eq_add_not_add_one]

/-! ### The codings -/

theorem encode_add (rd rs1 rs2 : RegNum) :
    encode (.add rd rs1 rs2) = 0x00#6 ++ rs1 ++ rs2 ++ rd ++ 0#11 := rfl

theorem encode_addi (rd rs1 : RegNum) (k : Half) : encode (.addi rd rs1 k) = 0x01#6 ++ rs1 ++ rd ++ k := rfl

theorem encode_sub (rd rs1 rs2 : RegNum) :
    encode (.sub rd rs1 rs2) = 0x02#6 ++ rs1 ++ rs2 ++ rd ++ 0#11 := rfl

theorem encode_subi (rd rs1 : RegNum) (k : Half) : encode (.subi rd rs1 k) = 0x03#6 ++ rs1 ++ rd ++ k := rfl

/-- Settles O27: each instruction's coding, then its meaning as a write-back of the value. -/
theorem arithmeticInstructionsCompute : Obligations.ArithmeticInstructionsCompute := by
  intro s rd rs1 rs2 k
  refine ⟨⟨encode_add rd rs1 rs2, ?add⟩, ⟨encode_addi rd rs1 k, ?addi⟩,
    ⟨encode_sub rd rs1 rs2, ?sub⟩, ⟨encode_subi rd rs1 k, ?subi⟩⟩
  case add => exact exec_computes_of_writeBack (exec_add rd rs1 rs2 s)
  case addi => exact exec_computes_of_writeBack (exec_addi rd rs1 k s)
  case sub => exact exec_computes_of_writeBack (exec_sub_complement rd rs1 rs2 s)
  case subi => exact exec_computes_of_writeBack (exec_subi rd rs1 k s)

end Sys2Proof.Machine

/-!
The logical instructions and LDHI (spec/41_logic.md R110 to R118). All nine are write-backs, so what they leave is
`computes_writeBack`; what is left is the value. XOR and XNOR are the source's remarks read bit by bit; the immediate
forms split register and constant into halfwords, where the zero-extended constant is zero above.
-/

namespace Sys2Proof.Machine

open Sys2Proof.Claims

/-! ### XOR and XNOR as the source's remarks define them (R114, R116) -/

theorem xor_eq_or_of_complements {w : Nat} (x y : BitVec w) : x ^^^ y = (x &&& ~~~y) ||| (~~~x &&& y) := by
  ext i hi
  simp only [BitVec.getElem_xor, BitVec.getElem_or, BitVec.getElem_and, BitVec.getElem_not]
  cases x[i] <;> cases y[i] <;> rfl

/-- Complementing one side of the XOR turns "they differ" into "they agree". -/
theorem not_xor_eq_or_of_agreement {w : Nat} (x y : BitVec w) :
    ~~~(x ^^^ y) = (x &&& y) ||| (~~~x &&& ~~~y) := by
  rw [BitVec.not_xor_right, xor_eq_or_of_complements, BitVec.not_not]

/-! ### The constants as two halfwords (R81, R84) -/

theorem unsignedImm_eq_append (u : Half) : unsignedImm u = 0#16 ++ u := BitVec.setWidth_eq_append (by decide)

theorem highImm_eq_append (u : Half) : highImm u = u ++ 0#16 := by
  have shifted : BitVec.setWidth 32 (u ++ 0#16) = highImm u ||| BitVec.setWidth 32 0#16 :=
    BitVec.setWidth_append_eq_shiftLeft_setWidth_or
  rw [BitVec.setWidth_zero, BitVec.or_zero, BitVec.setWidth_eq] at shifted
  exact shifted.symm

/-! ### A word and a zero-extended constant, halfword by halfword -/

/-- The library law at the width where a word is two halfwords. -/
theorem append_halves (x : Word) : x.extractLsb' 16 16 ++ x.extractLsb' 0 16 = x :=
  BitVec.extractLsb'_append_extractLsb'

theorem and_unsignedImm (x : Word) (u : Half) : x &&& unsignedImm u = 0#16 ++ (x.extractLsb' 0 16 &&& u) := by
  conv_lhs => rw [← append_halves x, unsignedImm_eq_append, BitVec.and_append, BitVec.and_zero]

theorem or_unsignedImm (x : Word) (u : Half) :
    x ||| unsignedImm u = x.extractLsb' 16 16 ++ (x.extractLsb' 0 16 ||| u) := by
  conv_lhs => rw [← append_halves x, unsignedImm_eq_append, BitVec.or_append, BitVec.or_zero]

theorem xor_unsignedImm (x : Word) (u : Half) :
    x ^^^ unsignedImm u = x.extractLsb' 16 16 ++ (x.extractLsb' 0 16 ^^^ u) := by
  conv_lhs => rw [← append_halves x, unsignedImm_eq_append, BitVec.xor_append, BitVec.xor_zero]

theorem not_xor_unsignedImm (x : Word) (u : Half) :
    ~~~(x ^^^ unsignedImm u) = ~~~(x.extractLsb' 16 16) ++ ~~~(x.extractLsb' 0 16 ^^^ u) := by
  rw [xor_unsignedImm, BitVec.not_append]

/-! ### The meanings as write-backs -/

theorem exec_and (rd rs1 rs2 : RegNum) (s : State) :
    exec (.and rd rs1 rs2) s = .next (s.writeBack rd (s.reg rs1 &&& s.reg rs2)) := rfl

theorem exec_andi (rd rs1 : RegNum) (u : Half) (s : State) :
    exec (.andi rd rs1 u) s = .next (s.writeBack rd (s.reg rs1 &&& unsignedImm u)) := rfl

theorem exec_or (rd rs1 rs2 : RegNum) (s : State) :
    exec (.or rd rs1 rs2) s = .next (s.writeBack rd (s.reg rs1 ||| s.reg rs2)) := rfl

theorem exec_ori (rd rs1 : RegNum) (u : Half) (s : State) :
    exec (.ori rd rs1 u) s = .next (s.writeBack rd (s.reg rs1 ||| unsignedImm u)) := rfl

theorem exec_xor (rd rs1 rs2 : RegNum) (s : State) :
    exec (.xor rd rs1 rs2) s = .next (s.writeBack rd (s.reg rs1 ^^^ s.reg rs2)) := rfl

theorem exec_xori (rd rs1 : RegNum) (u : Half) (s : State) :
    exec (.xori rd rs1 u) s = .next (s.writeBack rd (s.reg rs1 ^^^ unsignedImm u)) := rfl

theorem exec_xnor (rd rs1 rs2 : RegNum) (s : State) :
    exec (.xnor rd rs1 rs2) s = .next (s.writeBack rd (~~~(s.reg rs1 ^^^ s.reg rs2))) := rfl

theorem exec_xnori (rd rs1 : RegNum) (u : Half) (s : State) :
    exec (.xnori rd rs1 u) s = .next (s.writeBack rd (~~~(s.reg rs1 ^^^ unsignedImm u))) := rfl

theorem exec_ldhi (rd : RegNum) (u : Half) (s : State) :
    exec (.ldhi rd u) s = .next (s.writeBack rd (highImm u)) := rfl

/-! ### The codings -/

theorem encode_and (rd rs1 rs2 : RegNum) :
    encode (.and rd rs1 rs2) = 0x10#6 ++ rs1 ++ rs2 ++ rd ++ 0#11 := rfl

theorem encode_andi (rd rs1 : RegNum) (u : Half) : encode (.andi rd rs1 u) = 0x11#6 ++ rs1 ++ rd ++ u := rfl

theorem encode_or (rd rs1 rs2 : RegNum) :
    encode (.or rd rs1 rs2) = 0x12#6 ++ rs1 ++ rs2 ++ rd ++ 0#11 := rfl

theorem encode_ori (rd rs1 : RegNum) (u : Half) : encode (.ori rd rs1 u) = 0x13#6 ++ rs1 ++ rd ++ u := rfl

theorem encode_xor (rd rs1 rs2 : RegNum) :
    encode (.xor rd rs1 rs2) = 0x14#6 ++ rs1 ++ rs2 ++ rd ++ 0#11 := rfl

theorem encode_xori (rd rs1 : RegNum) (u : Half) : encode (.xori rd rs1 u) = 0x15#6 ++ rs1 ++ rd ++ u := rfl

theorem encode_xnor (rd rs1 rs2 : RegNum) :
    encode (.xnor rd rs1 rs2) = 0x16#6 ++ rs1 ++ rs2 ++ rd ++ 0#11 := rfl

theorem encode_xnori (rd rs1 : RegNum) (u : Half) : encode (.xnori rd rs1 u) = 0x17#6 ++ rs1 ++ rd ++ u := rfl

theorem encode_ldhi (rd : RegNum) (u : Half) : encode (.ldhi rd u) = 0x1F#6 ++ 0#5 ++ rd ++ u := rfl

/-! ### The obligations: the coding, then the write-back with its value in the statement's form -/

/-- Settles O28: AND and OR are the model's own values, XOR and XNOR go through the source's remarks. -/
theorem logicRegisterFormsCompute : Obligations.LogicRegisterFormsCompute := by
  intro s rd rs1 rs2
  refine ⟨⟨encode_and rd rs1 rs2, ?and⟩, ⟨encode_or rd rs1 rs2, ?or⟩,
    ⟨encode_xor rd rs1 rs2, ?xor⟩, ⟨encode_xnor rd rs1 rs2, ?xnor⟩⟩
  case and => exact exec_computes_of_writeBack (exec_and rd rs1 rs2 s)
  case or => exact exec_computes_of_writeBack (exec_or rd rs1 rs2 s)
  case xor => exact exec_computes_of_writeBack (by rw [exec_xor, xor_eq_or_of_complements])
  case xnor => exact exec_computes_of_writeBack (by rw [exec_xnor, not_xor_eq_or_of_agreement])

/-- Settles O29: each value is the operation on the two halfwords, the upper one with zero. -/
theorem logicImmediateFormsCompute : Obligations.LogicImmediateFormsCompute := by
  intro s rd rs1 u
  refine ⟨⟨encode_andi rd rs1 u, ?andi⟩, ⟨encode_ori rd rs1 u, ?ori⟩,
    ⟨encode_xori rd rs1 u, ?xori⟩, ⟨encode_xnori rd rs1 u, ?xnori⟩⟩
  case andi => exact exec_computes_of_writeBack (by rw [exec_andi, and_unsignedImm])
  case ori => exact exec_computes_of_writeBack (by rw [exec_ori, or_unsignedImm])
  case xori => exact exec_computes_of_writeBack (by rw [exec_xori, xor_unsignedImm])
  case xnori => exact exec_computes_of_writeBack (by rw [exec_xnori, not_xor_unsignedImm])

/-- Settles O30: shifting the extended constant left by a halfword puts it above a zero halfword. -/
theorem ldhiLoadsTheHighHalf : Obligations.LdhiLoadsTheHighHalf := by
  intro s rd u
  refine ⟨encode_ldhi rd u, ?ldhi⟩
  case ldhi => exact exec_computes_of_writeBack (by rw [exec_ldhi, highImm_eq_append])

end Sys2Proof.Machine

/-!
The conditional branches (spec/42_branch.md R130 to R136). All six end in `State.branchIf`, so their effect on the
state is said once, for any condition; per branch there remain its comparison as a proposition about the two
registers, its meaning as a `branchIf` of that comparison, and its coding.
-/

namespace Sys2Proof.Machine

/-! ### The comparisons as propositions: equality of all 32 bits, and the four unsigned orders -/

theorem condEq_iff (x y : Word) : condEq x y = true ↔ x = y := beq_iff_eq

theorem condNe_iff (x y : Word) : condNe x y = true ↔ x ≠ y := bne_iff_ne

theorem condLeu_iff (x y : Word) : condLeu x y = true ↔ x.toNat ≤ y.toNat := decide_eq_true_iff

theorem condLtu_iff (x y : Word) : condLtu x y = true ↔ x.toNat < y.toNat := decide_eq_true_iff

theorem condGeu_iff (x y : Word) : condGeu x y = true ↔ x.toNat ≥ y.toNat := decide_eq_true_iff

theorem condGtu_iff (x y : Word) : condGtu x y = true ↔ x.toNat > y.toNat := decide_eq_true_iff

/-! ### What a branch leaves (R130) -/

/-- The condition may be any proposition that the model's comparison decides; the pc is all that changes. -/
theorem branchIf_eq_withPc (s : State) {taken : Bool} {p : Prop} [Decidable p] (k : Half) (h : taken = true ↔ p) :
    s.branchIf taken k =
      { s with pc := if p then s.pc + 4#32 + (k.signExtend 32 <<< 2) else s.pc + 4#32 } := by
  have target : (if taken then branchTarget s.pc k else following s.pc) =
      if p then s.pc + 4#32 + (k.signExtend 32 <<< 2) else s.pc + 4#32 :=
    if_congr h (branchTarget_eq s.pc k) rfl
  rw [← target]
  rfl

theorem exec_of_branchIf {i : Instr} {s : State} {taken : Bool} {p : Prop} [Decidable p] {k : Half}
    (meaning : exec i s = .next (s.branchIf taken k)) (h : taken = true ↔ p) :
    exec i s = .next { s with
      pc := if p then s.pc + 4#32 + (k.signExtend 32 <<< 2) else s.pc + 4#32 } := by
  rw [meaning, branchIf_eq_withPc s k h]

/-! ### The meanings -/

theorem exec_beq (a b : RegNum) (k : Half) (s : State) :
    exec (.beq a b k) s = .next (s.branchIf (condEq (s.reg a) (s.reg b)) k) := rfl

theorem exec_bne (a b : RegNum) (k : Half) (s : State) :
    exec (.bne a b k) s = .next (s.branchIf (condNe (s.reg a) (s.reg b)) k) := rfl

theorem exec_bleu (a b : RegNum) (k : Half) (s : State) :
    exec (.bleu a b k) s = .next (s.branchIf (condLeu (s.reg a) (s.reg b)) k) := rfl

theorem exec_bltu (a b : RegNum) (k : Half) (s : State) :
    exec (.bltu a b k) s = .next (s.branchIf (condLtu (s.reg a) (s.reg b)) k) := rfl

theorem exec_bgeu (a b : RegNum) (k : Half) (s : State) :
    exec (.bgeu a b k) s = .next (s.branchIf (condGeu (s.reg a) (s.reg b)) k) := rfl

theorem exec_bgtu (a b : RegNum) (k : Half) (s : State) :
    exec (.bgtu a b k) s = .next (s.branchIf (condGtu (s.reg a) (s.reg b)) k) := rfl

/-! ### The codings -/

theorem encode_beq (a b : RegNum) (k : Half) : encode (.beq a b k) = 0x20#6 ++ a ++ b ++ k := rfl

theorem encode_bne (a b : RegNum) (k : Half) : encode (.bne a b k) = 0x21#6 ++ a ++ b ++ k := rfl

theorem encode_bleu (a b : RegNum) (k : Half) : encode (.bleu a b k) = 0x23#6 ++ a ++ b ++ k := rfl

theorem encode_bltu (a b : RegNum) (k : Half) : encode (.bltu a b k) = 0x25#6 ++ a ++ b ++ k := rfl

theorem encode_bgeu (a b : RegNum) (k : Half) : encode (.bgeu a b k) = 0x27#6 ++ a ++ b ++ k := rfl

theorem encode_bgtu (a b : RegNum) (k : Half) : encode (.bgtu a b k) = 0x29#6 ++ a ++ b ++ k := rfl

/-- Settles O32: each branch's coding, then its meaning with its comparison read as a proposition. -/
theorem branchesGoToTheirTargets : Obligations.BranchesGoToTheirTargets := by
  intro s a b k
  refine ⟨⟨encode_beq a b k, ?beq⟩, ⟨encode_bne a b k, ?bne⟩, ⟨encode_bleu a b k, ?bleu⟩,
    ⟨encode_bltu a b k, ?bltu⟩, ⟨encode_bgeu a b k, ?bgeu⟩, ⟨encode_bgtu a b k, ?bgtu⟩⟩
  case beq => exact exec_of_branchIf (exec_beq a b k s) (condEq_iff _ _)
  case bne => exact exec_of_branchIf (exec_bne a b k s) (condNe_iff _ _)
  case bleu => exact exec_of_branchIf (exec_bleu a b k s) (condLeu_iff _ _)
  case bltu => exact exec_of_branchIf (exec_bltu a b k s) (condLtu_iff _ _)
  case bgeu => exact exec_of_branchIf (exec_bgeu a b k s) (condGeu_iff _ _)
  case bgtu => exact exec_of_branchIf (exec_bgtu a b k s) (condGtu_iff _ _)

end Sys2Proof.Machine

/-!
The jumps (spec/43_jump.md R140 to R142). All three end in `State.setPc`. J and JR do nothing else; JAL is the
write-back of the link into register 31 with the pc then set to the target, so what it leaves is what that write-back
leaves, carried past `setPc`.
-/

namespace Sys2Proof.Machine

open Sys2Proof.Claims

/-! ### What setting the pc leaves -/

theorem setPc_jumpTarget (s : State) (k : JumpField) :
    s.setPc (jumpTarget s.pc k) = { s with pc := s.pc + 4#32 + (k.signExtend 32 <<< 2) } := by
  rw [jumpTarget_eq]
  rfl

@[simp] theorem byteAt_setPc (s : State) (pc : Word) (a : Nat) : (s.setPc pc).byteAt a = s.byteAt a := rfl

theorem writesRegister_setPc {s t : State} {rd : RegNum} {v : Word} (h : WritesRegister s t rd v) (pc : Word) :
    WritesRegister s (t.setPc pc) rd v := by
  intro r
  rw [reg_setPc]
  exact h r

theorem sameMemory_setPc {s t : State} (h : SameMemory s t) (pc : Word) : SameMemory s (t.setPc pc) := by
  intro a
  rw [byteAt_setPc]
  exact h a

theorem sameElsewhere_setPc {s t : State} (h : SameElsewhere s t) (pc : Word) :
    SameElsewhere s (t.setPc pc) := by
  simpa only [SameElsewhere, setPc_halted, setPc_kbdReady, setPc_kbdChar, setPc_disp, setPc_params, setPc_turns,
    setPc_free, setPc_epoch] using h

/-! ### The meanings -/

theorem exec_j (k : JumpField) (s : State) :
    exec (.j k) s = .next { s with pc := s.pc + 4#32 + (k.signExtend 32 <<< 2) } := by
  rw [← setPc_jumpTarget]
  rfl

theorem exec_jr (rs : RegNum) (s : State) : exec (.jr rs) s = .next { s with pc := s.reg rs } := rfl

/-- The write-back's own pc is overwritten; link and target both come from the pc of the JAL (R142). -/
theorem exec_jal (k : JumpField) (s : State) :
    exec (.jal k) s = .next ((s.writeBack 31#5 (s.pc + 4#32)).setPc (jumpTarget s.pc k)) := rfl

theorem exec_jal_links (k : JumpField) (s : State) :
    ∃ t, exec (.jal k) s = .next t ∧ WritesRegister s t 31#5 (s.pc + 4#32) ∧
      t.pc = s.pc + 4#32 + (k.signExtend 32 <<< 2) ∧ SameMemory s t ∧ SameElsewhere s t := by
  obtain ⟨link, -, memory, elsewhere⟩ := computes_writeBack s 31#5 (s.pc + 4#32)
  exact ⟨_, exec_jal k s, writesRegister_setPc link _, jumpTarget_eq s.pc k, sameMemory_setPc memory _,
    sameElsewhere_setPc elsewhere _⟩

/-! ### The codings -/

theorem encode_j (k : JumpField) : encode (.j k) = 0x2A#6 ++ k := rfl

theorem encode_jr (rs : RegNum) : encode (.jr rs) = 0x2B#6 ++ rs ++ 0#5 ++ 0#16 := rfl

theorem encode_jal (k : JumpField) : encode (.jal k) = 0x2C#6 ++ k := rfl

/-- Settles O35: each jump's coding, then its meaning. -/
theorem jumpsGoToTheirTargets : Obligations.JumpsGoToTheirTargets := by
  intro s k rs
  refine ⟨⟨encode_j k, ?j⟩, ⟨encode_jr rs, ?jr⟩, ⟨encode_jal k, ?jal⟩⟩
  case j => exact exec_j k s
  case jr => exact exec_jr rs s
  case jal => exact exec_jal_links k s

end Sys2Proof.Machine

/-!
The decoder against the encoder (spec/30_encoding.md R72 to R79, R85 to R87). Encoding then decoding goes format by
format. The other direction, and which words are no instruction, come from one inversion of `decode`: what a word is
decoded as, told by its opcode and its must-be-zero field.
-/

namespace Sys2Proof

open Sys2Proof.Claims

/-! ### Decoding an encoded instruction -/

/-- The decoder reads every field of a format back as the encoder put it there. -/
theorem decode_encode (ignorePad : Bool) (i : Instr) : decode ignorePad (encode i) = .instr i := by
  cases i with
  | add rd rs1 rs2 | sub rd rs1 rs2 | and rd rs1 rs2 | or rd rs1 rs2 | xor rd rs1 rs2 | xnor rd rs1 rs2 =>
    simp [decode, encode, opcode, checkPad, fieldOp_formatRRR, fieldA_formatRRR, fieldB_formatRRR,
      fieldC_formatRRR, padRRR_formatRRR]
  | addi _ _ k | subi _ _ k | andi _ _ k | ori _ _ k | xori _ _ k | xnori _ _ k | beq _ _ k | bne _ _ k
  | bleu _ _ k | bltu _ _ k | bgeu _ _ k | bgtu _ _ k | ldw _ _ k | ldh _ _ k | ldhu _ _ k | ldb _ _ k
  | ldbu _ _ k | stw _ _ k | sth _ _ k | stb _ _ k =>
    simp [decode, encode, opcode, fieldOp_formatRRI, fieldA_formatRRI, fieldB_formatRRI, fieldImm16_formatRRI]
  | ldhi rd u =>
    simp [decode, encode, opcode, checkPad, fieldOp_formatRHH, padRHH_formatRHH, fieldB_formatRHH,
      fieldImm16_formatRHH]
  | j k | jal k => simp [decode, encode, opcode, fieldOp_formatJ, fieldImm26_formatJ]
  | jr rs => simp [decode, encode, opcode, checkPad, fieldOp_formatJR, padJR_formatJR, fieldA_formatJR]

/-- Settles O1. -/
theorem decodeOfEncodeIsTheInstruction : Obligations.DecodeOfEncodeIsTheInstruction := decode_encode

/-! ### What a word is decoded as -/

/-- The opcodes of the formats with no must-be-zero field (R73, R74, R76, R77, R85). -/
def unpaddedOpcodes : List Nat :=
  [0x01, 0x03, 0x11, 0x13, 0x15, 0x17, 0x20, 0x21, 0x23, 0x25, 0x27, 0x29, 0x2A, 0x2C, 0x30, 0x31, 0x32, 0x33, 0x34,
    0x35, 0x36, 0x37]

/-- The opcodes of format RRR (R72, R85). -/
def registerOpcodes : List Nat := [0x00, 0x02, 0x10, 0x12, 0x14, 0x16]

/-- What the decoder makes of a word: an instruction whose coding the word is, an instruction of a format with a
must-be-zero field whose coding the word is if that field is zero, or nothing. -/
inductive DecodesTo (ignorePad : Bool) (w : Word) : Decoded → Prop
  | unpadded (i : Instr) (known : (fieldOp w).toNat ∈ unpaddedOpcodes) (coding : encode i = w) :
      DecodesTo ignorePad w (.instr i)
  | formatRRR (i : Instr) (known : (fieldOp w).toNat ∈ registerOpcodes)
      (coding : padRRR w = 0#11 → encode i = w) :
      DecodesTo ignorePad w (checkPad ignorePad (padRRR w == 0) i)
  | formatRHH (i : Instr) (known : (fieldOp w).toNat = 0x1F) (coding : padRHH w = 0#5 → encode i = w) :
      DecodesTo ignorePad w (checkPad ignorePad (padRHH w == 0) i)
  | formatJR (i : Instr) (known : (fieldOp w).toNat = 0x2B) (coding : padJR w = 0#21 → encode i = w) :
      DecodesTo ignorePad w (checkPad ignorePad (padJR w == 0) i)
  | unknown (op : UnknownOp (fieldOp w).toNat) : DecodesTo ignorePad w .unknownOpcode

section
variable {ignorePad : Bool} {w : Word} {i : Instr}

theorem decodesTo_of_formatRRI (op : (fieldOp w).toNat = (opcode i).toNat)
    (coding : encode i = formatRRI (opcode i) (fieldA w) (fieldB w) (fieldImm16 w))
    (known : (opcode i).toNat ∈ unpaddedOpcodes) : DecodesTo ignorePad w (.instr i) := by
  refine .unpadded i (op ▸ known) ?_
  rw [coding, ← BitVec.eq_of_toNat_eq op, word_eq_formatRRI]

theorem decodesTo_of_formatJ (op : (fieldOp w).toNat = (opcode i).toNat)
    (coding : encode i = formatJ (opcode i) (fieldImm26 w)) (known : (opcode i).toNat ∈ unpaddedOpcodes) :
    DecodesTo ignorePad w (.instr i) := by
  refine .unpadded i (op ▸ known) ?_
  rw [coding, ← BitVec.eq_of_toNat_eq op, word_eq_formatJ]

theorem decodesTo_of_formatRRR (op : (fieldOp w).toNat = (opcode i).toNat)
    (coding : encode i = formatRRR (opcode i) (fieldA w) (fieldB w) (fieldC w))
    (known : (opcode i).toNat ∈ registerOpcodes) :
    DecodesTo ignorePad w (checkPad ignorePad (padRRR w == 0) i) := by
  refine .formatRRR i (op ▸ known) fun zero => ?_
  rw [coding, ← BitVec.eq_of_toNat_eq op, word_eq_formatRRR w zero]

theorem decodesTo_of_formatRHH (op : (fieldOp w).toNat = (opcode i).toNat)
    (coding : encode i = formatRHH (opcode i) (fieldB w) (fieldImm16 w)) (known : (opcode i).toNat = 0x1F) :
    DecodesTo ignorePad w (checkPad ignorePad (padRHH w == 0) i) := by
  refine .formatRHH i (op.trans known) fun zero => ?_
  rw [coding, ← BitVec.eq_of_toNat_eq op, word_eq_formatRHH w zero]

theorem decodesTo_of_formatJR (op : (fieldOp w).toNat = (opcode i).toNat)
    (coding : encode i = formatJR (opcode i) (fieldA w)) (known : (opcode i).toNat = 0x2B) :
    DecodesTo ignorePad w (checkPad ignorePad (padJR w == 0) i) := by
  refine .formatJR i (op.trans known) fun zero => ?_
  rw [coding, ← BitVec.eq_of_toNat_eq op, word_eq_formatJR w zero]

end

theorem decode_decodesTo (ignorePad : Bool) (w : Word) : DecodesTo ignorePad w (decode ignorePad w) := by
  unfold decode
  split
  case h_1 op | h_3 op | h_5 op | h_7 op | h_9 op | h_11 op =>
    exact decodesTo_of_formatRRR op rfl (by simp [opcode, registerOpcodes])
  case h_13 op => exact decodesTo_of_formatRHH op rfl rfl
  case h_21 op => exact decodesTo_of_formatJR op rfl rfl
  case h_20 op | h_22 op => exact decodesTo_of_formatJ op rfl (by simp [opcode, unpaddedOpcodes])
  case h_31 =>
    have bound := (fieldOp w).isLt
    refine .unknown ?_
    unfold UnknownOp
    simp only [imp_false] at *
    omega
  all_goals
    rename_i op
    exact decodesTo_of_formatRRI op rfl (by simp [opcode, unpaddedOpcodes])

/-! ### Accepted words -/

/-- Settles O2: an accepted word of a format with a must-be-zero field has that field zero. -/
theorem encodeOfDecodeIsTheWord : Obligations.EncodeOfDecodeIsTheWord := by
  intro w i accepted
  have inverted := decode_decodesTo false w
  generalize decode false w = d at inverted accepted
  cases inverted with
  | unpadded j known coding =>
    injection accepted with same
    exact same ▸ coding
  | formatRRR j known coding | formatRHH j known coding | formatJR j known coding =>
    obtain ⟨zero, same⟩ := checkPad_off accepted
    exact same ▸ coding zero
  | unknown op => cases accepted

/-! ### Words that are no instruction -/

theorem not_unknownOp_of_unpadded : ∀ op ∈ unpaddedOpcodes, ¬UnknownOp op := by
  unfold UnknownOp
  decide

theorem not_unknownOp_of_register : ∀ op ∈ registerOpcodes, ¬UnknownOp op := by
  unfold UnknownOp
  decide

/-- Every opcode but the 34 decodes to an instruction or to a reserved encoding. -/
theorem decode_eq_unknownOpcode_iff (ignorePad : Bool) (w : Word) :
    decode ignorePad w = .unknownOpcode ↔ UnknownOp (fieldOp w).toNat := by
  have inverted := decode_decodesTo ignorePad w
  generalize decode ignorePad w = d at inverted
  cases inverted with
  | unpadded i known coding => simp [not_unknownOp_of_unpadded _ known]
  | formatRRR i known coding => simp [checkPad_ne_unknown, not_unknownOp_of_register _ known]
  | formatRHH i known coding | formatJR i known coding => simp [checkPad_ne_unknown, known, UnknownOp]
  | unknown op => simp [op]

/-- Settles O3. -/
theorem unknownOpcodesAreThe34 : Obligations.UnknownOpcodesAreThe34 := by
  intro ignorePad w
  rw [decode_eq_unknownOpcode_iff, fieldOp_toNat]

theorem checkPad_eq_reserved_iff {n : Nat} (pad : BitVec n) (i : Instr) :
    checkPad false (pad == 0) i = .reservedEncoding ↔ pad.toNat ≠ 0 := by
  simp [checkPad, BitVec.toNat_eq]

theorem padRRR_toNat (w : Word) : (padRRR w).toNat = w.toNat % 2 ^ 11 := by
  simp [padRRR, BitVec.extractLsb'_toNat]

theorem padRHH_toNat (w : Word) : (padRHH w).toNat = w.toNat / 2 ^ 21 % 2 ^ 5 := by
  simp [padRHH, BitVec.extractLsb'_toNat, Nat.shiftRight_eq_div_pow]

theorem padJR_toNat (w : Word) : (padJR w).toNat = w.toNat % 2 ^ 21 := by
  simp [padJR, BitVec.extractLsb'_toNat]

theorem not_otherPad_of_register : ∀ op ∈ registerOpcodes, op ≠ 0x1F ∧ op ≠ 0x2B := by decide

theorem not_padded_of_unpadded : ∀ op ∈ unpaddedOpcodes, op ∉ registerOpcodes ∧ op ≠ 0x1F ∧ op ≠ 0x2B := by
  decide

theorem not_padded_of_unknownOp {op : Nat} (unknown : UnknownOp op) :
    op ∉ registerOpcodes ∧ op ≠ 0x1F ∧ op ≠ 0x2B := by
  unfold UnknownOp at unknown
  simp only [registerOpcodes, List.mem_cons, List.not_mem_nil, or_false]
  omega

theorem decode_ne_reserved_of_ignorePad (w : Word) : decode true w ≠ .reservedEncoding := by
  have inverted := decode_decodesTo true w
  generalize decode true w = d at inverted
  cases inverted <;> simp [checkPad_on]

/-- Settles O4: a reserved encoding is what the must-be-zero check of the word's format answers. -/
theorem reservedEncodingsAreNonzeroPads : Obligations.ReservedEncodingsAreNonzeroPads := by
  intro w
  refine ⟨?_, decode_ne_reserved_of_ignorePad w⟩
  rw [← fieldOp_toNat, ← padRRR_toNat, ← padRHH_toNat, ← padJR_toNat]
  change _ ↔ (_ ∈ registerOpcodes ∧ _) ∨ _
  have inverted := decode_decodesTo false w
  generalize decode false w = d at inverted
  cases inverted with
  | unpadded i known coding => simp [not_padded_of_unpadded _ known]
  | unknown op => simp [not_padded_of_unknownOp op]
  | formatRRR i known coding =>
    rw [checkPad_eq_reserved_iff]
    simp [known, not_otherPad_of_register _ known]
  | formatRHH i known coding | formatJR i known coding =>
    rw [checkPad_eq_reserved_iff, known]
    simp [registerOpcodes]

/-! ### Words written out -/

/-- Settles O5. -/
theorem sampleWordsDecode : Obligations.SampleWordsDecode := by
  unfold Obligations.SampleWordsDecode
  decide

end Sys2Proof

/-!
What an instruction can do, said once. Every meaning has one of three shapes: a computing instruction sets its
destination and the pc from the registers and the pc; a load is one MemRead; a store is one MemWrite. From the shapes
follow the five effects that an instruction which answers a next state can have (`Effect`), and the frame rules of
spec/10_state.md section 2 and spec/20_memory.md sections 1 and 4 are read off them.
-/

namespace Sys2Proof.Machine

open Sys2Proof.Claims

/-! ### The pc stays a multiple of 4 (R26): all targets of branches and jumps do -/

theorem toNat_add_mod_four {x y : Word} (hx : x.toNat % 4 = 0) (hy : y.toNat % 4 = 0) :
    (x + y).toNat % 4 = 0 := by
  rw [BitVec.toNat_add]
  omega

theorem toNat_shiftLeft_two_mod_four (x : Word) : (x <<< 2).toNat % 4 = 0 := by
  rw [BitVec.toNat_shiftLeft, Nat.shiftLeft_eq]
  omega

theorem following_mod_four {pc : Word} (h : pc.toNat % 4 = 0) : (following pc).toNat % 4 = 0 :=
  toNat_add_mod_four h rfl

theorem branchTarget_mod_four {pc : Word} (k : Half) (h : pc.toNat % 4 = 0) : (branchTarget pc k).toNat % 4 = 0 :=
  toNat_add_mod_four (following_mod_four h) (toNat_shiftLeft_two_mod_four _)

theorem jumpTarget_mod_four {pc : Word} (k : JumpField) (h : pc.toNat % 4 = 0) : (jumpTarget pc k).toNat % 4 = 0 :=
  toNat_add_mod_four (following_mod_four h) (toNat_shiftLeft_two_mod_four _)

/-! ### The computing instructions -/

/-- Writing register 0, the stand-in for "no destination", changes nothing (R21). -/
theorem setReg_zero (s : State) (v : Word) : s.setReg 0#5 v = s := rfl

/-- An instruction that sets its destination (register 0 if it has none) to `value` and the pc to `target`, both
computed from the registers and the pc. -/
structure ComputesBy (i : Instr) (value target : (RegNum → Word) → Word → Word) : Prop where
  meaning : ∀ s, exec i s =
    .next ((s.setReg ((destination i).getD 0#5) (value s.reg s.pc)).setPc (target s.reg s.pc))
  keepsAligned : ∀ x pc, (∀ rs, i ≠ .jr rs) → pc.toNat % 4 = 0 → (target x pc).toNat % 4 = 0

theorem computesBy_of_writeBack {i : Instr} {rd : RegNum} (value : (RegNum → Word) → Word)
    (dest : destination i = some rd) (h : ∀ s, exec i s = .next (s.writeBack rd (value s.reg))) :
    ComputesBy i (fun x _ => value x) (fun _ pc => following pc) where
  meaning s := by
    rw [h, dest]
    rfl
  keepsAligned _ _ _ := following_mod_four

theorem computesBy_of_branchIf {i : Instr} {k : Half} (taken : (RegNum → Word) → Bool)
    (dest : destination i = none) (h : ∀ s, exec i s = .next (s.branchIf (taken s.reg) k)) :
    ComputesBy i (fun _ _ => 0#32) (fun x pc => if taken x then branchTarget pc k else following pc) where
  meaning s := by
    rw [h, dest, Option.getD_none, setReg_zero]
    rfl
  keepsAligned x pc _ aligned := by
    by_cases h : taken x = true
    · rw [if_pos h]
      exact branchTarget_mod_four k aligned
    · rw [if_neg h]
      exact following_mod_four aligned

theorem computesBy_j (k : JumpField) : ComputesBy (.j k) (fun _ _ => 0#32) (fun _ pc => jumpTarget pc k) where
  meaning _ := rfl
  keepsAligned _ _ _ := jumpTarget_mod_four k

theorem computesBy_jr (rs : RegNum) : ComputesBy (.jr rs) (fun _ _ => 0#32) (fun x _ => x rs) where
  meaning _ := rfl
  keepsAligned _ _ other := absurd rfl (other rs)

theorem computesBy_jal (k : JumpField) :
    ComputesBy (.jal k) (fun _ pc => following pc) (fun _ pc => jumpTarget pc k) where
  meaning _ := rfl
  keepsAligned _ _ _ := jumpTarget_mod_four k

/-! ### The loads and the stores -/

/-- The statements' effective address is the model's. -/
theorem address_eq_ea (s : State) (rs : RegNum) (k : Half) : s.address rs k = ea s rs k := rfl

/-- An instruction that is the load of a width, extended by `widen`. -/
structure LoadsBy (i : Instr) (w : Width) (widen : BitVec w.bits → Word) (rd rs : RegNum) (k : Half) : Prop where
  meaning : ∀ s, exec i s = s.load w widen rd rs k
  reads : ∀ s, loads s i = some (w.bytes, ea s rs k)
  writesNothing : ∀ s, stores s i = none
  dest : destination i = some rd
  word : w = .word → i = .ldw rd rs k

/-- An instruction that is the store of `value` of a register. -/
structure StoresBy (i : Instr) (w : Width) (value : Word → BitVec w.bits) (rv rs : RegNum) (k : Half) : Prop where
  meaning : ∀ s, exec i s = s.store w (value (s.reg rv)) rs k
  writes : ∀ s, stores s i = some (w.bytes, ea s rs k)
  readsNothing : ∀ s, loads s i = none

section
variable (rd rs : RegNum) (k : Half)

theorem loadsBy_ldw : LoadsBy (.ldw rd rs k) .word (fun v => v) rd rs k :=
  ⟨fun _ => rfl, fun _ => rfl, fun _ => rfl, rfl, fun _ => rfl⟩

theorem loadsBy_ldh : LoadsBy (.ldh rd rs k) .half signExtended rd rs k :=
  ⟨fun _ => rfl, fun _ => rfl, fun _ => rfl, rfl, nofun⟩

theorem loadsBy_ldhu : LoadsBy (.ldhu rd rs k) .half zeroExtended rd rs k :=
  ⟨fun _ => rfl, fun _ => rfl, fun _ => rfl, rfl, nofun⟩

theorem loadsBy_ldb : LoadsBy (.ldb rd rs k) .byte signExtended rd rs k :=
  ⟨fun _ => rfl, fun _ => rfl, fun _ => rfl, rfl, nofun⟩

theorem loadsBy_ldbu : LoadsBy (.ldbu rd rs k) .byte zeroExtended rd rs k :=
  ⟨fun _ => rfl, fun _ => rfl, fun _ => rfl, rfl, nofun⟩

theorem storesBy_stw : StoresBy (.stw rd rs k) .word (fun v => v) rd rs k :=
  ⟨fun _ => rfl, fun _ => rfl, fun _ => rfl⟩

theorem storesBy_sth : StoresBy (.sth rd rs k) .half (fun v => v.extractLsb' 0 16) rd rs k :=
  ⟨fun _ => rfl, fun _ => rfl, fun _ => rfl⟩

theorem storesBy_stb : StoresBy (.stb rd rs k) .byte (fun v => v.extractLsb' 0 8) rd rs k :=
  ⟨fun _ => rfl, fun _ => rfl, fun _ => rfl⟩

end

/-! ### Every instruction has one of the three shapes -/

/-- The three shapes, each with what the statements' tables say of such an instruction. -/
inductive Shape (i : Instr) : Prop
  | computing {value target : (RegNum → Word) → Word → Word} (noAccess : ∀ s, accesses s i = none)
      (meaning : ComputesBy i value target)
  | loading {w : Width} {widen : BitVec w.bits → Word} {rd rs : RegNum} {k : Half}
      (meaning : LoadsBy i w widen rd rs k)
  | storing {w : Width} {value : Word → BitVec w.bits} {rv rs : RegNum} {k : Half}
      (meaning : StoresBy i w value rv rs k)

theorem shape_of_writeBack {i : Instr} {rd : RegNum} (value : (RegNum → Word) → Word)
    (h : ∀ s, exec i s = .next (s.writeBack rd (value s.reg))) (dest : destination i = some rd)
    (noAccess : ∀ s, accesses s i = none) : Shape i :=
  .computing noAccess (computesBy_of_writeBack value dest h)

theorem shape_of_branchIf {i : Instr} {k : Half} (taken : (RegNum → Word) → Bool)
    (h : ∀ s, exec i s = .next (s.branchIf (taken s.reg) k)) (dest : destination i = none)
    (noAccess : ∀ s, accesses s i = none) : Shape i :=
  .computing noAccess (computesBy_of_branchIf taken dest h)

theorem shape (i : Instr) : Shape i := by
  cases i with
  | add rd a b => exact shape_of_writeBack (fun x => x a + x b) (exec_add rd a b) rfl fun _ => rfl
  | addi rd a k => exact shape_of_writeBack (fun x => x a + k.signExtend 32) (exec_addi rd a k) rfl fun _ => rfl
  | sub rd a b => exact shape_of_writeBack (fun x => x a - x b) (exec_sub rd a b) rfl fun _ => rfl
  | subi rd a k => exact shape_of_writeBack (fun x => x a - k.signExtend 32) (exec_subi rd a k) rfl fun _ => rfl
  | and rd a b => exact shape_of_writeBack (fun x => x a &&& x b) (exec_and rd a b) rfl fun _ => rfl
  | andi rd a u => exact shape_of_writeBack (fun x => x a &&& unsignedImm u) (exec_andi rd a u) rfl fun _ => rfl
  | or rd a b => exact shape_of_writeBack (fun x => x a ||| x b) (exec_or rd a b) rfl fun _ => rfl
  | ori rd a u => exact shape_of_writeBack (fun x => x a ||| unsignedImm u) (exec_ori rd a u) rfl fun _ => rfl
  | xor rd a b => exact shape_of_writeBack (fun x => x a ^^^ x b) (exec_xor rd a b) rfl fun _ => rfl
  | xori rd a u => exact shape_of_writeBack (fun x => x a ^^^ unsignedImm u) (exec_xori rd a u) rfl fun _ => rfl
  | xnor rd a b => exact shape_of_writeBack (fun x => ~~~(x a ^^^ x b)) (exec_xnor rd a b) rfl fun _ => rfl
  | xnori rd a u =>
    exact shape_of_writeBack (fun x => ~~~(x a ^^^ unsignedImm u)) (exec_xnori rd a u) rfl fun _ => rfl
  | ldhi rd u => exact shape_of_writeBack (fun _ => highImm u) (exec_ldhi rd u) rfl fun _ => rfl
  | beq a b k => exact shape_of_branchIf (fun x => condEq (x a) (x b)) (exec_beq a b k) rfl fun _ => rfl
  | bne a b k => exact shape_of_branchIf (fun x => condNe (x a) (x b)) (exec_bne a b k) rfl fun _ => rfl
  | bleu a b k => exact shape_of_branchIf (fun x => condLeu (x a) (x b)) (exec_bleu a b k) rfl fun _ => rfl
  | bltu a b k => exact shape_of_branchIf (fun x => condLtu (x a) (x b)) (exec_bltu a b k) rfl fun _ => rfl
  | bgeu a b k => exact shape_of_branchIf (fun x => condGeu (x a) (x b)) (exec_bgeu a b k) rfl fun _ => rfl
  | bgtu a b k => exact shape_of_branchIf (fun x => condGtu (x a) (x b)) (exec_bgtu a b k) rfl fun _ => rfl
  | j k => exact .computing (fun _ => rfl) (computesBy_j k)
  | jr rs => exact .computing (fun _ => rfl) (computesBy_jr rs)
  | jal k => exact .computing (fun _ => rfl) (computesBy_jal k)
  | ldw rd rs k => exact .loading (loadsBy_ldw rd rs k)
  | ldh rd rs k => exact .loading (loadsBy_ldh rd rs k)
  | ldhu rd rs k => exact .loading (loadsBy_ldhu rd rs k)
  | ldb rd rs k => exact .loading (loadsBy_ldb rd rs k)
  | ldbu rd rs k => exact .loading (loadsBy_ldbu rd rs k)
  | stw rd rs k => exact .storing (storesBy_stw rd rs k)
  | sth rd rs k => exact .storing (storesBy_sth rd rs k)
  | stb rd rs k => exact .storing (storesBy_stb rd rs k)

section
variable {s : State} {i : Instr} {n : Nat} {a : Word}

theorem accesses_of_loads (h : loads s i = some (n, a)) : accesses s i = some (n, a) := by
  simp [accesses, h]

theorem accesses_of_stores (reads : loads s i = none) (h : stores s i = some (n, a)) :
    accesses s i = some (n, a) := by
  simp [accesses, reads, h]

theorem accesses_eq_none_iff : accesses s i = none ↔ loads s i = none ∧ stores s i = none := by
  unfold accesses
  cases loads s i <;> simp

/-- The instructions that `loads` lists are the loads. -/
theorem loadsBy_of_loads (h : loads s i = some (n, a)) :
    ∃ w widen rd rs k, LoadsBy i w widen rd rs k ∧ n = w.bytes ∧ a = ea s rs k := by
  cases shape i with
  | computing noAccess _ => simp [(accesses_eq_none_iff.1 (noAccess s)).1] at h
  | storing store => simp [store.readsNothing s] at h
  | loading load =>
    have same := load.reads s
    simp only [h, Option.some.injEq, Prod.mk.injEq] at same
    exact ⟨_, _, _, _, _, load, same⟩

/-- The instructions that `stores` lists are the stores. -/
theorem storesBy_of_stores (h : stores s i = some (n, a)) :
    ∃ w value rv rs k, StoresBy i w value rv rs k ∧ n = w.bytes ∧ a = ea s rs k := by
  cases shape i with
  | computing noAccess _ => simp [(accesses_eq_none_iff.1 (noAccess s)).2] at h
  | loading load => simp [load.writesNothing s] at h
  | storing store =>
    have same := store.writes s
    simp only [h, Option.some.injEq, Prod.mk.injEq] at same
    exact ⟨_, _, _, _, _, store, same⟩

theorem computesBy_of_accesses (h : accesses s i = none) : ∃ value target, ComputesBy i value target := by
  cases shape i with
  | computing _ compute => exact ⟨_, _, compute⟩
  | loading load => simp [accesses_of_loads (load.reads s)] at h
  | storing store => simp [accesses_of_stores (store.readsNothing s) (store.writes s)] at h

/-- Every load or store that `accesses` lists, by its shape. -/
theorem loads_or_stores_of_accesses (h : accesses s i = some (n, a)) :
    loads s i = some (n, a) ∨ stores s i = some (n, a) := by
  unfold accesses at h
  cases reads : loads s i with
  | some x => exact .inl (by simpa [reads] using h)
  | none => exact .inr (by simpa [reads] using h)

end

/-! ### The record a load or store raises is true (R44, R50, R175) -/

theorem haltTrue_of_running {s : State} (h : s.halted = none) : s.haltTrue = true := by
  simp [State.haltTrue, h]

theorem width_bytes_dvd_four (w : Width) : w.bytes ∣ 4 := by
  cases w <;> decide

theorem width_bytes_le_four (w : Width) : w.bytes ≤ 4 := Nat.le_of_dvd (by decide) (width_bytes_dvd_four w)

theorem width_bytes_pos (w : Width) : 0 < w.bytes := Nat.pos_of_dvd_of_pos (width_bytes_dvd_four w) (by decide)

theorem haltTrue_misalignedData {s : State} {w : Width} {a : Word} (h : aligned w a = false) :
    (s.raise .misalignedData a).haltTrue = true := by
  have notMultiple : a.toNat % 4 ≠ 0 := fun multiple =>
    (not_aligned_iff w a).1 h
      (Nat.mod_eq_zero_of_dvd ((width_bytes_dvd_four w).trans (Nat.dvd_of_mod_eq_zero multiple)))
  simpa [State.haltTrue, not_aligned_iff] using notMultiple

theorem haltTrue_unmappedAccess {s : State} {a : Word} (h : s.inRegion a.toNat 4 = false) :
    (s.raise .unmappedAccess a).haltTrue = true := by
  have : (s.raise .unmappedAccess a).inRegion a.toNat 4 = false := h
  simp [State.haltTrue, this]

theorem haltTrue_romWrite {s : State} {a : Word} (h : s.meetsRom a.toNat 4 = true) :
    (s.raise .romWrite a).haltTrue = true := by
  have : (s.raise .romWrite a).meetsRom a.toNat 4 = true := h
  simp [State.haltTrue, this]

theorem meetsRom_mono {s : State} {a n m : Nat} (h : s.meetsRom a n = true) (le : n ≤ m) :
    s.meetsRom a m = true := by
  obtain ⟨r, hr, kind, x, low, high, inside⟩ := (meetsRom_iff s a n).1 h
  exact (meetsRom_iff s a m).2 ⟨r, hr, kind, x, low, by omega, inside⟩

/-- What lies in a region and touches no ROM lies in RAM. -/
theorem inRam_of_inRegion {s : State} {a n : Nat} (pos : 0 < n) (h : s.inRegion a n = true)
    (rom : s.meetsRom a n = false) : s.inRam a n = true := by
  obtain ⟨r, hr, low, high⟩ := (inRegion_iff s a n).1 h
  refine (inRam_iff s a n).2 ⟨r, hr, ?_, low, high⟩
  cases kind : r.kind with
  | ram => rfl
  | rom =>
    have meets := (meetsRom_iff s a n).2 ⟨r, hr, kind, a, by omega, by omega, low, by omega⟩
    simp [rom] at meets

theorem inRegion_four_eq_false {s : State} {a n : Nat} (le : n ≤ 4) (h : s.inRegion a n = false) :
    s.inRegion a 4 = false := by
  by_contra held
  have part := inRegion_part (Bool.not_eq_false _ ▸ held) (Nat.le_refl a) (Nat.add_le_add_left le a)
  simp [h] at part

theorem haltTrue_of_memRead {s : State} {w : Width} {a x : Word} {c : Cause} (h : s.memRead w a = .raised c x) :
    (s.raise c x).haltTrue = true := by
  obtain ⟨rfl, ⟨rfl, misaligned⟩ | ⟨rfl, -, -, unmapped⟩⟩ := memRead_raised h
  · exact haltTrue_misalignedData misaligned
  · exact haltTrue_unmappedAccess (inRegion_four_eq_false (width_bytes_le_four w) unmapped)

theorem haltTrue_of_memWrite {s : State} {w : Width} {a x : Word} {v : BitVec w.bits} {c : Cause}
    (h : s.memWrite w a v = .raised c x) : (s.raise c x).haltTrue = true := by
  obtain ⟨rfl, ⟨rfl, misaligned⟩ | ⟨rfl, -, -, -, rom⟩ | ⟨rfl, -, -, notRam, notRom⟩⟩ := memWrite_raised h
  · exact haltTrue_misalignedData misaligned
  · exact haltTrue_romWrite (meetsRom_mono rom (width_bytes_le_four w))
  · refine haltTrue_unmappedAccess (inRegion_four_eq_false (width_bytes_le_four w) ?_)
    by_contra held
    have ram := inRam_of_inRegion (width_bytes_pos w) (Bool.not_eq_false _ ▸ held) notRom
    simp [notRam] at ram

/-! ### The five effects -/

/-- What an instruction that answers a next state has done: computed, read memory or the keyboard, written RAM,
written a display cell, or entered the halted state. -/
inductive Effect (s : State) (i : Instr) : State → Prop
  | computed (v pc : Word) (noAccess : accesses s i = none)
      (keepsAligned : (∀ rs, i ≠ .jr rs) → s.pc.toNat % 4 = 0 → pc.toNat % 4 = 0) :
      Effect s i ((s.setReg ((destination i).getD 0#5) v).setPc pc)
  | read {n : Nat} {a : Word} (ready : Bool) (free : Nat) (rd : RegNum) (v : Word)
      (access : loads s i = some (n, a)) (writesNothing : stores s i = none) (dest : destination i = some rd)
      (keyboard : ready ≠ s.kbdReady →
        ready = false ∧ ∃ rs k, i = .ldw rd rs k ∧ ea s rs k = 0x30200004#32) :
      Effect s i (State.writeBack { s with kbdReady := ready, free := free } rd v)
  | wroteRam {w : Width} {a : Word} (v : BitVec w.bits) (access : stores s i = some (w.bytes, a))
      (ram : s.inRam a.toNat w.bytes = true) :
      Effect s i (State.advance { s with mem := writeBytes s.mem a.toNat (valueBytes w v) })
  | wroteCell {a : Word} (v : Word) (access : stores s i = some (4, a)) (align : aligned .word a = true)
      (display : inDisplay a = true) (cell : isCell (cellNumber a) = true) :
      Effect s i (State.advance { s with disp := insertKey s.disp (cellNumber a) v })
  | raised {n : Nat} {a : Word} (c : Cause) (access : accesses s i = some (n, a))
      (misaligned : c = .misalignedData → a.toNat % n ≠ 0) (recordTrue : (s.raise c a).haltTrue = true) :
      Effect s i (s.raise c a)

theorem effect_of_load {s t : State} {i : Instr} {w : Width} {widen : BitVec w.bits → Word} {rd rs : RegNum}
    {k : Half} (load : LoadsBy i w widen rd rs k) (h : s.load w widen rd rs k = .next t) : Effect s i t := by
  obtain ⟨v, s', done, rfl⟩ | ⟨c, x, raised, rfl⟩ := load_next h
  · obtain ⟨-, ⟨-, -, -, rfl⟩ | ⟨-, -, -, rfl⟩ | ⟨rfl, data, -, rfl⟩⟩ := memRead_done done
    · exact .read s'.kbdReady s'.free rd _ (load.reads s') (load.writesNothing s') load.dest (absurd rfl)
    · exact .read s.kbdReady _ rd _ (load.reads s) (load.writesNothing s) load.dest (absurd rfl)
    · exact .read false _ rd _ (load.reads s) (load.writesNothing s) load.dest
        fun _ => ⟨rfl, rs, k, load.word rfl, BitVec.eq_of_toNat_eq data⟩
  · obtain ⟨rfl, why⟩ := memRead_raised raised
    refine .raised c (accesses_of_loads (load.reads s)) (fun misaligned => ?_) (haltTrue_of_memRead raised)
    obtain ⟨-, unaligned⟩ | ⟨other, -⟩ := why
    · exact (not_aligned_iff w _).1 unaligned
    · simp [misaligned] at other

theorem effect_of_store {s t : State} {i : Instr} {w : Width} {value : Word → BitVec w.bits} {rv rs : RegNum}
    {k : Half} (store : StoresBy i w value rv rs k) (h : s.store w (value (s.reg rv)) rs k = .next t) :
    Effect s i t := by
  obtain ⟨s', done, rfl⟩ | ⟨c, x, raised, rfl⟩ := store_next h
  · obtain ⟨align, ⟨-, ram, rfl⟩ | ⟨rfl, display, cell, v, -, rfl⟩⟩ := memWrite_done done
    · exact .wroteRam _ (store.writes s) ram
    · exact .wroteCell v (store.writes s) align display cell
  · obtain ⟨rfl, why⟩ := memWrite_raised raised
    refine .raised c (accesses_of_stores (store.readsNothing s) (store.writes s)) (fun misaligned => ?_)
      (haltTrue_of_memWrite raised)
    obtain ⟨-, unaligned⟩ | ⟨other, -⟩ | ⟨other, -⟩ := why
    · exact (not_aligned_iff w _).1 unaligned
    · simp [misaligned] at other
    · simp [misaligned] at other

theorem exec_effect {s t : State} {i : Instr} (h : exec i s = .next t) : Effect s i t := by
  cases shape i with
  | computing noAccess compute =>
    rw [compute.meaning, Host.Outcome.next.injEq] at h
    exact h ▸ .computed _ _ (noAccess s) (compute.keepsAligned s.reg s.pc)
  | loading load => exact effect_of_load load (load.meaning s ▸ h)
  | storing store => exact effect_of_store store (store.meaning s ▸ h)

/-! ### What the effects leave unchanged -/

theorem sameElsewhere_setReg_setPc (s : State) (rd : RegNum) (v pc : Word) :
    SameElsewhere s ((s.setReg rd v).setPc pc) := by
  simp [SameElsewhere]

theorem exec_params_turns_epoch {s t : State} {i : Instr} (h : exec i s = .next t) :
    t.params = s.params ∧ t.turns = s.turns ∧ t.epoch = s.epoch := by
  cases exec_effect h <;> exact ⟨rfl, rfl, rfl⟩

/-- Settles O21. -/
theorem onlyTheDestinationRegisterChanges : Obligations.OnlyTheDestinationRegisterChanges := by
  intro s t i r h changed
  cases exec_effect h with
  | computed v pc =>
    rw [reg_setPc, reg_setReg] at changed
    have written : r = (destination i).getD 0#5 ∧ (destination i).getD 0#5 ≠ 0#5 := by
      by_contra other
      exact changed (if_neg other)
    obtain ⟨rfl, notZero⟩ := written
    cases dest : destination i with
    | none => exact absurd (dest ▸ rfl) notZero
    | some rd => rfl
  | read ready free rd v access writesNothing dest keyboard =>
    rw [reg_writeBack] at changed
    have written : r = rd ∧ rd ≠ 0#5 := by
      by_contra other
      exact changed (if_neg other)
    rw [dest, written.1]
  | wroteRam v access ram => exact absurd rfl changed
  | wroteCell v access align display cell => exact absurd rfl changed
  | raised c access => exact absurd rfl changed

/-- Settles O22. -/
theorem onlyLoadsAndStoresReachMemory : Obligations.OnlyLoadsAndStoresReachMemory := by
  intro s t i h
  cases exec_effect h with
  | computed v pc => exact ⟨fun _ => ⟨fun _ => rfl, rfl, rfl⟩, fun _ => sameElsewhere_setReg_setPc s _ v pc⟩
  | read ready free rd v access =>
    exact ⟨fun _ => ⟨fun _ => rfl, rfl, rfl⟩, fun none => by simp [accesses_of_loads access] at none⟩
  | wroteRam v access | wroteCell v access =>
    exact ⟨fun none => by simp [access] at none, fun none => by simp [accesses_eq_none_iff, access] at none⟩
  | raised c access => exact ⟨fun _ => ⟨fun _ => rfl, rfl, rfl⟩, fun none => by simp [access] at none⟩

/-- Settles O23. -/
theorem onlyTheDataRegisterReadHasASideEffect : Obligations.OnlyTheDataRegisterReadHasASideEffect := by
  intro s t i h
  cases exec_effect h with
  | read ready free rd v access writesNothing dest keyboard =>
    refine ⟨rfl, fun changed => ?_⟩
    obtain ⟨cleared, rs, k, ldw, address⟩ := keyboard changed
    exact ⟨cleared, rd, rs, k, ldw, address⟩
  | computed | wroteRam | wroteCell | raised => exact ⟨rfl, fun changed => absurd rfl changed⟩

/-- Settles O24. -/
theorem computingInstructionsNeverRaise : Obligations.ComputingInstructionsNeverRaise := by
  intro s i noAccess
  obtain ⟨value, target, compute⟩ := computesBy_of_accesses noAccess
  exact ⟨_, compute.meaning s, rfl⟩

end Sys2Proof.Machine

/-!
Noninterference of the display (spec/60_exceptions.md R188, D14): from two states that differ in the display only,
every layer answers the same but for the display. It goes up the layers of the model: MemRead and MemWrite, loads and
stores, `exec`, the CPU, the whole machine.
-/

namespace Sys2Proof.Machine

/-- The state with another content of its display. -/
def withDisplay (s : State) (d : Display) : State := { s with disp := d }

/-- The same state but for the display. -/
def SameButDisplay (t u : State) : Prop := ∃ d, u = withDisplay t d

/-- Two answers that are the same but for the display of the next state. -/
inductive AgreeButDisplay : Result → Result → Prop
  | next (t : State) (d : Display) : AgreeButDisplay (.next t) (.next (withDisplay t d))
  | fault (f : Fault) : AgreeButDisplay (.fault f) (.fault f)
  | refused (r : Refusal) : AgreeButDisplay (.refused r) (.refused r)

/-- Two answers of a memory primitive that are the same but for what `done` carries, which `rel` relates. -/
inductive AccessAgrees {α : Type} (rel : α → α → Prop) : Access α → Access α → Prop
  | done {x y : α} (related : rel x y) : AccessAgrees rel (.done x) (.done y)
  | raised (c : Cause) (info : Word) : AccessAgrees rel (.raised c info) (.raised c info)
  | refused (r : Refusal) : AccessAgrees rel (.refused r) (.refused r)

/-- The same loaded value, and the same state but for the display. -/
inductive SameRead {α : Type} : α × State → α × State → Prop
  | intro (v : α) (t : State) (d : Display) : SameRead (v, t) (v, withDisplay t d)

section
variable (s : State) (d : Display)

/-! ### What no check looks at -/

@[simp] theorem withDisplay_pc : (withDisplay s d).pc = s.pc := rfl

@[simp] theorem withDisplay_halted : (withDisplay s d).halted = s.halted := rfl

@[simp] theorem withDisplay_params : (withDisplay s d).params = s.params := rfl

@[simp] theorem withDisplay_turns : (withDisplay s d).turns = s.turns := rfl

@[simp] theorem address_withDisplay (rs : RegNum) (k : Half) : (withDisplay s d).address rs k = s.address rs k := rfl

@[simp] theorem inRegion_withDisplay (a n : Nat) : (withDisplay s d).inRegion a n = s.inRegion a n := rfl

@[simp] theorem inRam_withDisplay (a n : Nat) : (withDisplay s d).inRam a n = s.inRam a n := rfl

@[simp] theorem meetsRom_withDisplay (a n : Nat) : (withDisplay s d).meetsRom a n = s.meetsRom a n := rfl

@[simp] theorem fetch_withDisplay (a : Word) : (withDisplay s d).fetch a = s.fetch a := rfl

/-! ### The memory primitives -/

theorem deviceRead_display (a : Word) :
    AccessAgrees SameRead (s.deviceRead a) ((withDisplay s d).deviceRead a) := by
  unfold State.deviceRead
  split_ifs
  · exact .refused _
  · exact .done (.intro _ _ d)
  · exact .done (.intro _ _ d)
  · exact .refused _

theorem deviceWrite_display (a v : Word) :
    AccessAgrees SameButDisplay (s.deviceWrite a v) ((withDisplay s d).deviceWrite a v) := by
  unfold State.deviceWrite
  split_ifs
  · exact .done ⟨_, rfl⟩
  · exact .refused _
  · exact .refused _

theorem memRead_display (w : Width) (a : Word) :
    AccessAgrees SameRead (s.memRead w a) ((withDisplay s d).memRead w a) := by
  unfold State.memRead
  rw [inRegion_withDisplay]
  split_ifs
  · cases w with
    | word => exact deviceRead_display s d a
    | half | byte => exact .refused _
  · exact .done (.intro _ _ d)
  · exact .raised _ _
  · exact .raised _ _

theorem memWrite_display (w : Width) (a : Word) (v : BitVec w.bits) :
    AccessAgrees SameButDisplay (s.memWrite w a v) ((withDisplay s d).memWrite w a v) := by
  unfold State.memWrite
  rw [inRam_withDisplay, meetsRom_withDisplay]
  split_ifs
  · cases w with
    | word => exact deviceWrite_display s d a v
    | half | byte => exact .refused _
  · exact .done ⟨d, rfl⟩
  · exact .raised _ _
  · exact .raised _ _
  · exact .raised _ _

/-! ### The instructions -/

theorem load_display (w : Width) (widen : BitVec w.bits → Word) (rd rs : RegNum) (k : Half) :
    AgreeButDisplay (s.load w widen rd rs k) ((withDisplay s d).load w widen rd rs k) := by
  have reads := memRead_display s d w (s.address rs k)
  unfold State.load
  rw [address_withDisplay]
  generalize s.memRead w (s.address rs k) = x, (withDisplay s d).memRead w (s.address rs k) = y at reads
  cases reads with
  | raised c info => exact .next _ d
  | refused r => exact .refused r
  | done same =>
    obtain ⟨v, t, d'⟩ := same
    exact .next _ d'

theorem store_display (w : Width) (v : BitVec w.bits) (rs : RegNum) (k : Half) :
    AgreeButDisplay (s.store w v rs k) ((withDisplay s d).store w v rs k) := by
  have writes := memWrite_display s d w (s.address rs k) v
  unfold State.store
  rw [address_withDisplay]
  generalize s.memWrite w (s.address rs k) v = x, (withDisplay s d).memWrite w (s.address rs k) v = y at writes
  cases writes with
  | raised c info => exact .next _ d
  | refused r => exact .refused r
  | done same =>
    obtain ⟨d', rfl⟩ := same
    exact .next _ d'

theorem exec_display (i : Instr) : AgreeButDisplay (exec i s) (exec i (withDisplay s d)) := by
  cases shape i with
  | computing _ compute =>
    rw [compute.meaning, compute.meaning]
    exact .next _ d
  | loading load =>
    rw [load.meaning, load.meaning]
    exact load_display s d ..
  | storing store =>
    rw [store.meaning, store.meaning]
    exact store_display s d ..

/-! ### The CPU and the whole machine -/

theorem runWord_display (w : Word) : AgreeButDisplay (s.runWord w) ((withDisplay s d).runWord w) := by
  unfold State.runWord
  rw [withDisplay_params]
  cases decode s.params.ignoreMustBeZero w with
  | instr i => exact exec_display s d i
  | unknownOpcode => exact .next _ d
  | reservedEncoding => exact .refused _

theorem cpuStep_display : AgreeButDisplay s.cpuStep (withDisplay s d).cpuStep := by
  unfold State.cpuStep
  rw [withDisplay_halted, withDisplay_pc, fetch_withDisplay]
  cases s.halted with
  | some h => exact .fault _
  | none =>
    cases s.fetch s.pc with
    | done w => exact runWord_display s d w
    | raised c info => exact .next _ d
    | refused r => exact .refused r

/-- A reset event is the one step after which the two displays are the same: both are blank. -/
theorem step_display : AgreeButDisplay (step s) (step (withDisplay s d)) := by
  unfold step
  rw [withDisplay_turns]
  cases s.turns with
  | nil => exact cpuStep_display s d
  | cons turn rest =>
    cases turn with
    | cpu => exact cpuStep_display { s with turns := rest } d
    | key c replace => exact .next _ d
    | reset => exact .next _ []

end

/-- Settles O26. -/
theorem theDisplayCannotBeReadBack : Obligations.TheDisplayCannotBeReadBack := by
  intro s d
  have agree := step_display s d
  change AgreeButDisplay _ (step { s with disp := d }) at agree
  generalize step s = x, step { s with disp := d } = y at agree
  cases agree with
  | next t d' => exact ⟨d', rfl⟩
  | fault f => rfl
  | refused r => rfl

end Sys2Proof.Machine

/-!
The model's invariant (`State.wf`), kept by every step: what every effect of an instruction, an arriving character and
a reset event keep of it.
-/

namespace Sys2Proof.Machine

theorem wf_iff (s : State) :
    s.wf = true ↔ s.params.wf = true ∧ Memory.wf s.mem = true ∧ (∀ c ∈ s.mem, s.inRegion c.1 1 = true) ∧
      Display.wf s.disp = true ∧ s.regs[0] = 0#32 ∧ s.haltTrue = true := by
  simp [State.wf, and_assoc]

/-! ### Memory and display stay in canonical form and in their places -/

theorem inRegion_of_mem_writeBytes {s : State} {w : Width} {a : Nat} {v : BitVec w.bits}
    (listed : ∀ c ∈ s.mem, s.inRegion c.1 1 = true) (ram : s.inRam a w.bytes = true) :
    ∀ c ∈ writeBytes s.mem a (valueBytes w v), s.inRegion c.1 1 = true := by
  intro c hc
  rcases mem_writeBytes hc with ⟨low, high⟩ | old
  · rw [valueBytes_length] at high
    exact inRegion_part (inRegion_of_inRam ram) low (by omega)
  · exact listed c old

theorem displayWf_insertKey {d : Display} {k : Nat} (v : Word) (h : Display.wf d = true) (cell : isCell k = true) :
    Display.wf (insertKey d k v) = true := by
  simp only [Display.wf, Bool.and_eq_true, List.all_eq_true] at h ⊢
  refine ⟨rising_insertKey d k v h.1, fun c hc => ?_⟩
  rcases mem_insertKey hc with rfl | old
  · exact cell
  · exact h.2 c old

theorem inRegion_of_romHolds {s : State} {a : Nat} (h : romHolds s.params a = true) : s.inRegion a 1 = true := by
  obtain ⟨r, hr, -, inside⟩ := (romHolds_iff s.params a).1 h
  exact (inRegion_iff s a 1).2 ⟨r, hr, inside⟩

/-! ### What the instructions keep -/

theorem wf_of_effect {s t : State} {i : Instr} (running : s.halted = none) (h : s.wf = true) (effect : Effect s i t) :
    t.wf = true := by
  obtain ⟨params, canonical, listed, display, zero, -⟩ := (wf_iff s).1 h
  rw [wf_iff]
  cases effect with
  | computed v pc =>
    exact ⟨params, canonical, listed, display, (regs_zero_setReg s _ v).trans zero, haltTrue_of_running running⟩
  | read ready free rd v =>
    exact ⟨params, canonical, listed, display, (regs_zero_setReg s rd v).trans zero, haltTrue_of_running running⟩
  | wroteRam v access ram =>
    exact ⟨params, writeBytes_wf s.mem _ _ canonical, inRegion_of_mem_writeBytes listed ram, display, zero,
      haltTrue_of_running running⟩
  | wroteCell v access align inWindow cell =>
    exact ⟨params, canonical, listed, displayWf_insertKey v display cell, zero, haltTrue_of_running running⟩
  | raised c access misaligned recordTrue => exact ⟨params, canonical, listed, display, zero, recordTrue⟩

/-! ### What the CPU, the keyboard and a reset keep -/

theorem wf_raise {s : State} {c : Cause} {x : Word} (h : s.wf = true) (recordTrue : (s.raise c x).haltTrue = true) :
    (s.raise c x).wf = true := by
  obtain ⟨params, canonical, listed, display, zero, -⟩ := (wf_iff s).1 h
  exact (wf_iff _).2 ⟨params, canonical, listed, display, zero, recordTrue⟩

theorem haltTrue_unknownOpcode {s : State} {w : Word} (h : decode s.params.ignoreMustBeZero w = .unknownOpcode) :
    (s.raise .unknownOpcode w).haltTrue = true := by
  simp [State.haltTrue, h]

theorem haltTrue_of_fetch {s : State} {x : Word} {c : Cause} (h : s.fetch s.pc = .raised c x) :
    (s.raise c x).haltTrue = true := by
  obtain ⟨rfl, ⟨rfl, misaligned⟩ | ⟨rfl, -, unmapped⟩⟩ := fetch_raised h
  · simp [State.haltTrue, misaligned]
  · have : ((s.raise .unmappedAccess s.pc).inRegion s.pc.toNat 4 && !inPeripheral s.pc) = false := unmapped
    simp [State.haltTrue, this]

theorem wf_of_cpuStep {s t : State} (h : s.wf = true) (stepped : s.cpuStep = .next t) : t.wf = true := by
  obtain ⟨running, ⟨w, i, -, -, executed⟩ | ⟨w, -, unknown, rfl⟩ | ⟨c, x, raised, rfl⟩⟩ := cpuStep_next stepped
  · exact wf_of_effect running h (exec_effect executed)
  · exact wf_raise h (haltTrue_unknownOpcode unknown)
  · exact wf_raise h (haltTrue_of_fetch raised)

theorem wf_keyArrives {s : State} (c : Byte) (replace : Bool) (h : s.wf = true) : (s.keyArrives c replace).wf = true :=
  h

theorem wf_resetEvent {s : State} (h : s.wf = true) : s.resetEvent.wf = true := by
  obtain ⟨params, canonical, -, -, -, -⟩ := (wf_iff s).1 h
  refine (wf_iff _).2 ⟨params, rising_filter s.mem _ canonical, fun c hc => ?_, rfl, resetRegs_zero _, rfl⟩
  exact inRegion_of_romHolds (List.mem_filter.1 hc).2

/-- The schedule is no part of the invariant. -/
theorem wf_withTurns {s : State} (rest : List Turn) (h : s.wf = true) : State.wf { s with turns := rest } = true := h

/-- Settles O16. -/
theorem stepKeepsWellFormed : Obligations.StepKeepsWellFormed := by
  intro s t h stepped
  obtain ⟨rest, stepped⟩ | ⟨c, replace, rest, rfl⟩ | ⟨rest, rfl⟩ := step_next stepped
  · exact wf_of_cpuStep (wf_withTurns rest h) stepped
  · exact wf_keyArrives c replace (wf_withTurns rest h)
  · exact wf_resetEvent (wf_withTurns rest h)

/-- Settles O17: the launch parameters are well-formed, and reset leaves nothing else to check. -/
theorem resetIsWellFormed : Obligations.ResetIsWellFormed := by
  unfold Obligations.ResetIsWellFormed
  decide

end Sys2Proof.Machine

/-!
One step of the machine (spec/70_reset_and_hazards.md R211, R216, R217, spec/60_exceptions.md R172 to R177, R190):
the order of Fetch, what a CPU step answers for each word it fetches, the halted state, the keyboard agent, and reset.
-/

namespace Sys2Proof.Machine

open Sys2Proof.Claims

/-! ### The statements' address predicates are the model's checks -/

theorem mapped_iff (s : State) (a n : Nat) : Mapped s a n ↔ s.inRegion a n = true := by
  simp [Mapped, InOneRegion, inRegion_iff]

theorem not_mapped_iff (s : State) (a n : Nat) : ¬Mapped s a n ↔ s.inRegion a n = false := by
  simp [mapped_iff]

theorem inWindow_iff (a : Word) : InWindow a.toNat ↔ inPeripheral a = true := (inPeripheral_iff a).symm

theorem not_inWindow_iff (a : Word) : ¬InWindow a.toNat ↔ inPeripheral a = false := by
  simp [inWindow_iff]

/-! ### Fetch in its order (R54) -/

section
variable {s : State} {a : Word}

theorem fetch_of_misaligned (h : a.toNat % 4 ≠ 0) : s.fetch a = .raised .misalignedFetch a := by
  have misaligned : aligned .word a = false := (not_aligned_iff .word a).2 h
  simp [State.fetch, misaligned]

theorem fetch_of_memory (align : a.toNat % 4 = 0) (mapped : Mapped s a.toNat 4) (outside : ¬InWindow a.toNat) :
    s.fetch a = .done (wordAt s a.toNat) := by
  have align : aligned .word a = true := (aligned_iff .word a).2 align
  rw [mapped_iff] at mapped
  rw [not_inWindow_iff] at outside
  simp only [State.fetch, align, mapped, outside]
  rfl

theorem fetch_of_noMemory (align : a.toNat % 4 = 0) (h : ¬Mapped s a.toNat 4 ∨ InWindow a.toNat) :
    s.fetch a = .raised .unmappedAccess a := by
  have align : aligned .word a = true := (aligned_iff .word a).2 align
  rw [not_mapped_iff, inWindow_iff] at h
  rcases h with unmapped | inside
  · simp [State.fetch, align, unmapped]
  · simp [State.fetch, align, inside]

end

/-- Settles O10: well-formed parameters put no region over a window. -/
theorem fetchFollowsItsOrder : Obligations.FetchFollowsItsOrder := by
  intro s a params
  refine ⟨fetch_of_misaligned, fun align mapped => ?_, fun align unmapped => fetch_of_noMemory align (.inl unmapped),
    fun align inside => fetch_of_noMemory align (.inr inside)⟩
  have outside := not_inPeripheral_of_inRegion params (by decide) ((mapped_iff s a.toNat 4).1 mapped)
  exact fetch_of_memory align mapped ((not_inWindow_iff a).2 outside)

/-! ### A CPU step -/

section
variable {s : State}

/-- The agent whose turn it is when the schedule is empty, or says so, is the CPU (log 11). -/
theorem step_of_cpuNext (h : s.turns = [] ∨ s.turns.head? = some .cpu) : step s = (turnTaken s).cpuStep := by
  rcases h with silent | cpu
  · have : turnTaken s = s := by
      rw [turnTaken, silent, List.tail_nil, ← silent]
    rw [step_silent silent, this]
  · obtain ⟨rest, turns⟩ := List.head?_eq_some_iff.1 cpu
    rw [step_cpu turns, turnTaken, turns, List.tail_cons]

theorem haltedWith_eq_raise (s : State) (c : Cause) (x : Word) : haltedWith s c x = s.raise c x := rfl

theorem cpuStep_of_fetched {w : Word} (running : s.halted = none) (fetched : s.fetch s.pc = .done w) :
    s.cpuStep = s.runWord w := by
  simp [State.cpuStep, running, fetched]

theorem cpuStep_of_fetch_raised {c : Cause} {x : Word} (running : s.halted = none)
    (raised : s.fetch s.pc = .raised c x) : s.cpuStep = .next (s.raise c x) := by
  simp [State.cpuStep, running, raised]

theorem cpuStep_of_halted {h : Halt} (halted : s.halted = some h) : s.cpuStep = .fault (.halted h) := by
  simp [State.cpuStep, halted]

theorem runWord_of_instr {w : Word} {i : Instr} (h : decode s.params.ignoreMustBeZero w = .instr i) :
    s.runWord w = exec i s := by
  simp [State.runWord, h]

theorem runWord_of_unknownOpcode {w : Word} (h : decode s.params.ignoreMustBeZero w = .unknownOpcode) :
    s.runWord w = .next (s.raise .unknownOpcode w) := by
  simp [State.runWord, h]

theorem runWord_of_reservedEncoding {w : Word} (h : decode s.params.ignoreMustBeZero w = .reservedEncoding) :
    s.runWord w = .refused .reservedEncoding := by
  simp [State.runWord, h]

/-- The CPU's step at a fetched word. -/
theorem step_of_fetched (turn : CpuTurn s) (align : s.pc.toNat % 4 = 0) (mapped : Mapped s s.pc.toNat 4)
    (outside : ¬InWindow s.pc.toNat) : step s = (turnTaken s).runWord (wordAt s s.pc.toNat) := by
  obtain ⟨running, next⟩ := turn
  rw [step_of_cpuNext next]
  exact cpuStep_of_fetched running (fetch_of_memory align mapped outside)

theorem step_of_misaligned (turn : CpuTurn s) (misaligned : s.pc.toNat % 4 ≠ 0) :
    step s = .next (haltedWith (turnTaken s) .misalignedFetch s.pc) := by
  obtain ⟨running, next⟩ := turn
  rw [step_of_cpuNext next]
  exact cpuStep_of_fetch_raised running (fetch_of_misaligned misaligned)

end

/-- Settles O6. -/
theorem stepRunsTheDecodedInstruction : Obligations.StepRunsTheDecodedInstruction := by
  intro s i turn align mapped outside decoded
  rw [step_of_fetched turn align mapped outside]
  exact runWord_of_instr decoded

/-- Settles O7. -/
theorem unknownOpcodeHaltsTheMachine : Obligations.UnknownOpcodeHaltsTheMachine := by
  intro s turn align mapped outside unknown
  rw [step_of_fetched turn align mapped outside, haltedWith_eq_raise]
  refine runWord_of_unknownOpcode ?_
  rw [decode_eq_unknownOpcode_iff, fieldOp_toNat]
  exact unknown

/-- Settles O8. -/
theorem reservedEncodingIsRefused : Obligations.ReservedEncodingIsRefused := by
  intro s turn align mapped outside reserved
  rw [step_of_fetched turn align mapped outside]
  exact runWord_of_reservedEncoding reserved

/-- Settles O9. -/
theorem misalignedFetchHaltsTheMachine : Obligations.MisalignedFetchHaltsTheMachine :=
  fun _ => step_of_misaligned

/-! ### Whose step it is -/

/-- Everything a step that answers a next state can be, with the turn that is used up. -/
theorem step_next_turnTaken {s t : State} (h : step s = .next t) :
    ((s.turns = [] ∨ s.turns.head? = some .cpu) ∧ (turnTaken s).cpuStep = .next t) ∨
    (∃ c replace, s.turns.head? = some (.key c replace) ∧ t = (turnTaken s).keyArrives c replace) ∨
    (s.turns.head? = some .reset ∧ t = (turnTaken s).resetEvent) := by
  cases turns : s.turns with
  | nil => exact .inl ⟨.inl rfl, step_of_cpuNext (.inl turns) ▸ h⟩
  | cons turn rest =>
    have taken : turnTaken s = { s with turns := rest } := by
      rw [turnTaken, turns, List.tail_cons]
    rw [taken]
    cases turn with
    | cpu => exact .inl ⟨.inr rfl, step_cpu turns ▸ h⟩
    | key c replace =>
      rw [step_key turns, Host.Outcome.next.injEq] at h
      exact .inr (.inl ⟨c, replace, rfl, h.symm⟩)
    | reset =>
      rw [step_reset turns, Host.Outcome.next.injEq] at h
      exact .inr (.inr ⟨rfl, h.symm⟩)

/-- A CPU step keeps the parameters and the schedule, whatever it fetches. -/
theorem cpuStep_params_turns {s t : State} (h : s.cpuStep = .next t) : t.params = s.params ∧ t.turns = s.turns := by
  obtain ⟨-, ⟨w, i, -, -, executed⟩ | ⟨w, -, -, rfl⟩ | ⟨c, x, -, rfl⟩⟩ := cpuStep_next h
  · obtain ⟨params, turns, -⟩ := exec_params_turns_epoch executed
    exact ⟨params, turns⟩
  · exact ⟨rfl, rfl⟩
  · exact ⟨rfl, rfl⟩

/-- Settles O15. -/
theorem stepKeepsTheParameters : Obligations.StepKeepsTheParameters := by
  intro s t stepped
  obtain ⟨-, stepped⟩ | ⟨c, replace, -, rfl⟩ | ⟨-, rfl⟩ := step_next_turnTaken stepped
  · exact cpuStep_params_turns stepped
  · exact ⟨rfl, rfl⟩
  · exact ⟨rfl, rfl⟩

/-! ### The halted state -/

/-- Settles O11: only the CPU looks at the record, and only a reset clears it. -/
theorem haltedMachineHasNoCpuStep : Obligations.HaltedMachineHasNoCpuStep := by
  intro s h halted
  refine ⟨fun next => ?_, fun t stepped => ?_, fun c replace key => ?_⟩
  · rw [step_of_cpuNext next]
    exact cpuStep_of_halted halted
  · obtain ⟨-, stepped⟩ | ⟨c, replace, -, rfl⟩ | ⟨reset, rfl⟩ := step_next_turnTaken stepped
    · obtain ⟨running, -⟩ := cpuStep_next stepped
      exact absurd (halted.symm.trans running) (by simp)
    · exact .inl halted
    · exact .inr ⟨reset, rfl⟩
  · obtain ⟨rest, turns⟩ := List.head?_eq_some_iff.1 key
    exact ⟨_, step_key turns⟩

/-- An instruction of a running machine that ends halted has raised, which is all it did. -/
theorem exec_halted {s t : State} {i : Instr} {h : Halt} (running : s.halted = none) (executed : exec i s = .next t)
    (halted : t.halted = some h) : ∃ c x, t = s.raise c x := by
  cases exec_effect executed with
  | raised c => exact ⟨c, _, rfl⟩
  | computed | read | wroteRam | wroteCell => exact absurd (running.symm.trans halted) (by simp)

theorem cpuStep_halted {s t : State} {h : Halt} (stepped : s.cpuStep = .next t) (halted : t.halted = some h) :
    ∃ c x, t = s.raise c x := by
  obtain ⟨running, ⟨w, i, -, -, executed⟩ | ⟨w, -, -, rfl⟩ | ⟨c, x, -, rfl⟩⟩ := cpuStep_next stepped
  · exact exec_halted running executed halted
  · exact ⟨_, _, rfl⟩
  · exact ⟨_, _, rfl⟩

/-- Settles O12: whatever it raises, a CPU step that ends halted is `State.raise`. -/
theorem raiseIsPrecise : Obligations.RaiseIsPrecise := by
  rintro s t h ⟨-, next⟩ stepped halted
  rw [step_of_cpuNext next] at stepped
  obtain ⟨c, x, rfl⟩ := cpuStep_halted stepped halted
  obtain rfl := Option.some.inj halted
  exact ⟨rfl, rfl⟩

/-! ### The keyboard agent and reset -/

/-- Settles O13: the three cases of R190. -/
theorem keyboardArrivalIsASeparateStep : Obligations.KeyboardArrivalIsASeparateStep := by
  intro s c replace rest turns
  rw [step_key turns]
  refine ⟨fun idle => ?_, fun pending replaced => ?_, fun pending kept => ?_⟩
  · simp [State.keyArrives, idle]
  · simp [State.keyArrives, replaced, ← pending]
  · simp [State.keyArrives, kept, pending]

/-- A byte whose key passes the filter is still listed. -/
theorem lookupKey_filter {β : Type} (p : Nat → Bool) {a : Nat} (kept : p a = true) (m : List (Nat × β)) :
    lookupKey (m.filter fun c => p c.1) a = lookupKey m a := by
  induction m with
  | nil => rfl
  | cons c rest ih =>
    obtain ⟨k, v⟩ := c
    by_cases hk : k = a
    · subst hk
      simp [lookupKey, kept]
    · by_cases hp : p k = true
      · simp [List.filter_cons_of_pos, hp, lookupKey, hk, ih]
      · simp [List.filter_cons_of_neg, hp, lookupKey, hk, ih]

theorem byteAt_of_listed {s : State} {a : Nat} {b : Byte} (h : lookupKey s.mem a = some b) : s.byteAt a = b := by
  simp [State.byteAt, h]

theorem lookupKey_resetEvent_rom {s : State} {a : Nat} (rom : romHolds s.params a = true) :
    lookupKey s.resetEvent.mem a = lookupKey s.mem a :=
  lookupKey_filter (romHolds s.params) rom s.mem

/-- Settles O14. -/
theorem resetEventLeaves : Obligations.ResetEventLeaves := by
  intro s rest turns
  refine ⟨_, step_reset turns, rfl, rfl, reg_zero _, rfl, rfl, fun r a b hr kind low high listed => ?_⟩
  have rom : romHolds s.params a = true := (romHolds_iff s.params a).2 ⟨r, hr, kind, low, high⟩
  exact byteAt_of_listed ((lookupKey_resetEvent_rom (s := { s with turns := rest }) rom).trans listed)

/-- Settles O18. -/
theorem launchStateIsReset : Obligations.LaunchStateIsReset :=
  fun p image turns =>
    ⟨rfl, rfl, reg_zero _, fun _ _ => byteAt_of_listed (s := State.launch p image turns), by decide⟩

/-! ### The pc (R26) -/

theorem exec_keeps_aligned {s t : State} {i : Instr} (align : s.pc.toNat % 4 = 0) (other : ∀ rs, i ≠ .jr rs)
    (executed : exec i s = .next t) : t.pc.toNat % 4 = 0 := by
  cases exec_effect executed with
  | computed v pc noAccess keepsAligned => exact keepsAligned other align
  | read | wroteRam | wroteCell => exact following_mod_four align
  | raised => exact align

/-- Settles O19: all effects but JR's keep the pc a multiple of 4, and JR's next step is a misaligned fetch. -/
theorem onlyJrMisalignsThePc : Obligations.OnlyJrMisalignsThePc :=
  ⟨fun _ _ _ => exec_keeps_aligned,
    fun s rs => ⟨_, exec_jr rs s, rfl, fun turn => step_of_misaligned (s := { s with pc := s.reg rs }) turn⟩⟩

/-! ### The end of a run (R217) -/

theorem ended_iff (endPc : Word) (s : State) : s.ended endPc = true ↔ s.pc = endPc ∧ s.halted = none := by
  simp [State.ended, State.running]

theorem run_succ {s t : State} (h : step s = .next t) (j : Nat) : core.run (j + 1) s = core.run j t := by
  have h : core.step s = .next t := h
  simp [Host.Core.run, h]

/-- One more step ends the run here, or steps on to a state that ends within the steps left. -/
theorem endsWithin_succ {endPc : Word} {k : Nat} {s : State} (h : endsWithin endPc (k + 1) s = true) :
    s.ended endPc = true ∨ ∃ t, step s = .next t ∧ endsWithin endPc k t = true := by
  rw [endsWithin, Bool.or_eq_true] at h
  refine h.imp_right fun later => ?_
  cases stepped : step s with
  | next t => exact ⟨t, rfl, by simpa [stepped] using later⟩
  | fault f => simp [stepped] at later
  | refused r => simp [stepped] at later

/-- Settles O53, by induction on the bound: a run that has ended takes no step. -/
theorem endedRunsReachEndPc : Obligations.EndedRunsReachEndPc := by
  intro endPc k
  induction k with
  | zero =>
    intro s ended
    exact ⟨0, s, Nat.le_refl 0, rfl, (ended_iff endPc s).1 ended⟩
  | succ k ih =>
    intro s h
    obtain ended | ⟨t, stepped, rest⟩ := endsWithin_succ h
    · exact ⟨0, s, Nat.zero_le _, rfl, (ended_iff endPc s).1 ended⟩
    · obtain ⟨j, u, bound, reached, atEnd⟩ := ih t rest
      exact ⟨j + 1, u, Nat.succ_le_succ bound, (run_succ stepped j).trans reached, atEnd⟩

end Sys2Proof.Machine

/-!
Three rules that the computing instructions give together: LDHI with ORI loads any constant (spec/41_logic.md R119),
the six branch conditions depend on each other (spec/42_branch.md R138), and the two words that programs use for
"do nothing" and "stay here" (spec/30_encoding.md R88, spec/70_reset_and_hazards.md R217).
-/

namespace Sys2Proof.Machine

open Sys2Proof.Claims

/-! ### Two instructions that compute into the same register -/

theorem computes_twice {s t u : State} {rd : RegNum} {v w : Word} (first : Computes s t rd v)
    (second : Computes t u rd w) :
    WritesRegister s u rd w ∧ u.pc = s.pc + 8#32 ∧ SameMemory s u ∧ SameElsewhere s u := by
  obtain ⟨register₁, pc₁, memory₁, elsewhere₁⟩ := first
  obtain ⟨register₂, pc₂, memory₂, elsewhere₂⟩ := second
  refine ⟨fun r => ?_, ?_, fun a => (memory₂ a).trans (memory₁ a), ?_⟩
  · rw [register₂, register₁]
    split_ifs <;> rfl
  · rw [pc₂, pc₁, BitVec.add_assoc]
    rfl
  · simp_all [SameElsewhere]

theorem reg_writeBack_same {s : State} {rd : RegNum} (v : Word) (h : rd ≠ 0#5) : (s.writeBack rd v).reg rd = v := by
  simp [reg_writeBack, h]

/-- The halfwords that LDHI and ORI load do not overlap. -/
theorem highImm_or_unsignedImm (c : Word) :
    highImm (c.extractLsb' 16 16) ||| unsignedImm (c.extractLsb' 0 16) = c := by
  rw [highImm_eq_append, unsignedImm_eq_append, BitVec.or_append, BitVec.or_zero, BitVec.zero_or, append_halves]

/-- Settles O31. -/
theorem ldhiThenOriLoadsAnyConstant : Obligations.LdhiThenOriLoadsAnyConstant := by
  intro s rd c notZero
  have ori := exec_ori rd rd (c.extractLsb' 0 16) (s.writeBack rd (highImm (c.extractLsb' 16 16)))
  rw [reg_writeBack_same _ notZero, highImm_or_unsignedImm] at ori
  exact ⟨_, _, exec_ldhi rd _ s, ori, computes_twice (computes_writeBack s rd _) (computes_writeBack _ rd c)⟩

/-! ### The branch conditions -/

theorem branchOffset_ne_zero {k : Half} (h : k ≠ 0#16) : branchOffset k ≠ 0#32 := by
  intro zero
  have scaled := branchOffset_toInt k
  rw [zero, BitVec.toInt_zero] at scaled
  refine h (BitVec.eq_of_toInt_eq ?_)
  rw [BitVec.toInt_zero]
  omega

/-- With a non-zero field, a branch goes to its target exactly when its condition holds. -/
theorem takes_iff {i : Instr} {s : State} {taken : Bool} {p : Prop} [Decidable p] {k : Half} (field : k ≠ 0#16)
    (meaning : exec i s = .next (s.branchIf taken k)) (h : taken = true ↔ p) : Takes i k s ↔ p := by
  rw [Takes, exec_of_branchIf meaning h]
  by_cases holds : p
  · simp [holds]
  · have : branchOffset k ≠ 0#32 := branchOffset_ne_zero field
    simpa [holds, branchOffset] using this

/-- Settles O33: each condition as an order of the two unsigned values. -/
theorem branchConditionsAreConsistent : Obligations.BranchConditionsAreConsistent := by
  intro s a b k field
  rw [takes_iff field (exec_beq a b k s) ((condEq_iff _ _).trans BitVec.toNat_inj.symm),
    takes_iff field (exec_bne a b k s) ((condNe_iff _ _).trans BitVec.toNat_ne_iff_ne.symm),
    takes_iff field (exec_bleu a b k s) (condLeu_iff _ _), takes_iff field (exec_bltu a b k s) (condLtu_iff _ _),
    takes_iff field (exec_bgeu a b k s) (condGeu_iff _ _), takes_iff field (exec_bgtu a b k s) (condGtu_iff _ _)]
  omega

/-! ### The filler and the self-jump -/

/-- The field of all ones is -1: the offset takes the 4 back. -/
theorem jumpTarget_ones (pc : Word) : jumpTarget pc 0x3FFFFFF = pc := by
  rw [jumpTarget_eq, BitVec.add_assoc]
  exact BitVec.add_zero pc

/-- Settles O36. -/
theorem fillerAndSelfJump : Obligations.FillerAndSelfJump := by
  refine ⟨by decide, by decide, fun s => ⟨exec_add 0 0 0 s, ?selfJump⟩⟩
  case selfJump =>
    have target := jumpTarget_ones s.pc
    rw [exec_j, ← setPc_jumpTarget, target]
    rfl

end Sys2Proof.Machine

/-!
Loads and stores on memory (spec/44_load_store.md R150 to R159, spec/20_memory.md R41 to R52): what each answers when
its address is misaligned, in a region, in none, in ROM, and that accesses of every width and fetches see the same
bytes.
-/

namespace Sys2Proof.Machine

open Sys2Proof.Claims

/-! ### The statements' address predicates for stores -/

theorem inRam_eq_true_iff (s : State) (a n : Nat) : InRam s a n ↔ s.inRam a n = true := (inRam_iff s a n).symm

theorem not_inRam_iff (s : State) (a n : Nat) : ¬InRam s a n ↔ s.inRam a n = false := by
  simp [inRam_eq_true_iff]

theorem touchesRom_iff (s : State) (a n : Nat) : TouchesRom s a n ↔ s.meetsRom a n = true := (meetsRom_iff s a n).symm

theorem not_touchesRom_iff (s : State) (a n : Nat) : ¬TouchesRom s a n ↔ s.meetsRom a n = false := by
  simp [touchesRom_iff]

theorem mapped_of_inRam {s : State} {a n : Nat} (h : InRam s a n) : Mapped s a n :=
  (mapped_iff s a n).2 (inRegion_of_inRam ((inRam_eq_true_iff s a n).1 h))

/-! ### Loads from memory -/

section
variable {s : State} {w : Width} {rd rs : RegNum} {k : Half}

theorem load_of_mapped (widen : BitVec w.bits → Word) (align : (ea s rs k).toNat % w.bytes = 0)
    (outside : ¬InWindow (ea s rs k).toNat) (mapped : Mapped s (ea s rs k).toNat w.bytes) :
    s.load w widen rd rs k = .next (s.writeBack rd (widen (s.valueAt w (ea s rs k).toNat))) :=
  load_of_done (memRead_of_region s ((aligned_iff w _).2 align) ((not_inWindow_iff _).1 outside)
    ((mapped_iff s _ _).1 mapped))

theorem load_of_misaligned (widen : BitVec w.bits → Word) (misaligned : (ea s rs k).toNat % w.bytes ≠ 0) :
    s.load w widen rd rs k = .next (haltedWith s .misalignedData (ea s rs k)) :=
  load_of_raised (memRead_of_misaligned s ((not_aligned_iff w _).2 misaligned))

theorem load_of_unmapped (widen : BitVec w.bits → Word) (align : (ea s rs k).toNat % w.bytes = 0)
    (outside : ¬InWindow (ea s rs k).toNat) (unmapped : ¬Mapped s (ea s rs k).toNat w.bytes) :
    s.load w widen rd rs k = .next (haltedWith s .unmappedAccess (ea s rs k)) :=
  load_of_raised (memRead_of_unmapped s ((aligned_iff w _).2 align) ((not_inWindow_iff _).1 outside)
    ((not_mapped_iff s _ _).1 unmapped))

theorem exec_computes_of_load {i : Instr} {widen : BitVec w.bits → Word} (load : LoadsBy i w widen rd rs k)
    (align : (ea s rs k).toNat % w.bytes = 0) (outside : ¬InWindow (ea s rs k).toNat)
    (mapped : Mapped s (ea s rs k).toNat w.bytes) :
    ∃ t, exec i s = .next t ∧ Computes s t rd (widen (s.valueAt w (ea s rs k).toNat)) :=
  exec_computes_of_writeBack (load.meaning s ▸ load_of_mapped widen align outside mapped)

end

/-- "Extended with zeros" (R45) as zeros in front. -/
theorem zeroExtended_half (v : Half) : zeroExtended v = 0#16 ++ v := BitVec.setWidth_eq_append (by decide)

theorem zeroExtended_byte (v : Byte) : zeroExtended v = 0#24 ++ v := BitVec.setWidth_eq_append (by decide)

theorem encode_ldw (rd rs : RegNum) (k : Half) : encode (.ldw rd rs k) = 0x30#6 ++ rs ++ rd ++ k := rfl

theorem encode_ldh (rd rs : RegNum) (k : Half) : encode (.ldh rd rs k) = 0x31#6 ++ rs ++ rd ++ k := rfl

theorem encode_ldhu (rd rs : RegNum) (k : Half) : encode (.ldhu rd rs k) = 0x32#6 ++ rs ++ rd ++ k := rfl

theorem encode_ldb (rd rs : RegNum) (k : Half) : encode (.ldb rd rs k) = 0x33#6 ++ rs ++ rd ++ k := rfl

theorem encode_ldbu (rd rs : RegNum) (k : Half) : encode (.ldbu rd rs k) = 0x34#6 ++ rs ++ rd ++ k := rfl

/-- Settles O37: the five codings, then each load as MemRead of its width and its extension. -/
theorem loadsReadMemory : Obligations.LoadsReadMemory := by
  intro s rd rs k
  refine ⟨⟨encode_ldw rd rs k, encode_ldh rd rs k, encode_ldhu rd rs k, encode_ldb rd rs k, encode_ldbu rd rs k⟩,
    fun outside mapped align => ?ldw, fun outside mapped align => ⟨?ldh, ?ldhu⟩,
    fun outside mapped => ⟨?ldb, ?ldbu⟩⟩
  case ldw => exact exec_computes_of_load (loadsBy_ldw rd rs k) align outside mapped
  case ldh => exact exec_computes_of_load (loadsBy_ldh rd rs k) align outside mapped
  case ldhu => exact zeroExtended_half _ ▸ exec_computes_of_load (loadsBy_ldhu rd rs k) align outside mapped
  case ldb => exact exec_computes_of_load (loadsBy_ldb rd rs k) (Nat.mod_one _) outside mapped
  case ldbu => exact zeroExtended_byte _ ▸ exec_computes_of_load (loadsBy_ldbu rd rs k) (Nat.mod_one _) outside mapped

/-! ### Stores to memory -/

/-- Every byte after a write of several. -/
theorem byteAt_writeBytes (s : State) (a x : Nat) (bs : List Byte) :
    State.byteAt { s with mem := writeBytes s.mem a bs } x =
      if a ≤ x ∧ x < a + bs.length then bs.getD (x - a) 0#8 else s.byteAt x := by
  simp only [State.byteAt, lookupKey_writeBytes]
  split_ifs with inside
  · have listed : x - a < bs.length := by omega
    simp [listed]
  · rfl

theorem stores_writeBytes (s : State) (a : Nat) (bs : List Byte) :
    Stores s (State.advance { s with mem := writeBytes s.mem a bs }) a bs :=
  ⟨fun x => byteAt_writeBytes s a x bs, fun _ => rfl, rfl, by simp [SameElsewhere]⟩

theorem memWrite_of_rom (s : State) {w : Width} {a : Word} (v : BitVec w.bits) (align : aligned w a = true)
    (outside : inPeripheral a = false) (notRam : s.inRam a.toNat w.bytes = false)
    (rom : s.meetsRom a.toNat w.bytes = true) : s.memWrite w a v = .raised .romWrite a := by
  simp [State.memWrite, align, outside, notRam, rom]

theorem memWrite_of_unmapped (s : State) {w : Width} {a : Word} (v : BitVec w.bits) (align : aligned w a = true)
    (outside : inPeripheral a = false) (notRam : s.inRam a.toNat w.bytes = false)
    (notRom : s.meetsRom a.toNat w.bytes = false) : s.memWrite w a v = .raised .unmappedAccess a := by
  simp [State.memWrite, align, outside, notRam, notRom]

section
variable {s : State} {w : Width} {rs : RegNum} {k : Half} (v : BitVec w.bits)

theorem store_of_ram (align : (ea s rs k).toNat % w.bytes = 0) (outside : ¬InWindow (ea s rs k).toNat)
    (ram : InRam s (ea s rs k).toNat w.bytes) :
    s.store w v rs k =
      .next (State.advance { s with mem := writeBytes s.mem (ea s rs k).toNat (valueBytes w v) }) :=
  store_of_done (memWrite_of_ram s v ((aligned_iff w _).2 align) ((not_inWindow_iff _).1 outside)
    ((inRam_eq_true_iff s _ _).1 ram))

theorem store_of_misaligned (misaligned : (ea s rs k).toNat % w.bytes ≠ 0) :
    s.store w v rs k = .next (haltedWith s .misalignedData (ea s rs k)) :=
  store_of_raised (memWrite_of_misaligned s v ((not_aligned_iff w _).2 misaligned))

theorem store_of_rom (align : (ea s rs k).toNat % w.bytes = 0) (outside : ¬InWindow (ea s rs k).toNat)
    (notRam : ¬InRam s (ea s rs k).toNat w.bytes) (rom : TouchesRom s (ea s rs k).toNat w.bytes) :
    s.store w v rs k = .next (haltedWith s .romWrite (ea s rs k)) :=
  store_of_raised (memWrite_of_rom s v ((aligned_iff w _).2 align) ((not_inWindow_iff _).1 outside)
    ((not_inRam_iff s _ _).1 notRam) ((touchesRom_iff s _ _).1 rom))

theorem store_of_unmapped (align : (ea s rs k).toNat % w.bytes = 0) (outside : ¬InWindow (ea s rs k).toNat)
    (notRam : ¬InRam s (ea s rs k).toNat w.bytes) (notRom : ¬TouchesRom s (ea s rs k).toNat w.bytes) :
    s.store w v rs k = .next (haltedWith s .unmappedAccess (ea s rs k)) :=
  store_of_raised (memWrite_of_unmapped s v ((aligned_iff w _).2 align) ((not_inWindow_iff _).1 outside)
    ((not_inRam_iff s _ _).1 notRam) ((not_touchesRom_iff s _ _).1 notRom))

end

theorem exec_stores {s : State} {i : Instr} {w : Width} {value : Word → BitVec w.bits} {rv rs : RegNum} {k : Half}
    (store : StoresBy i w value rv rs k) (align : (ea s rs k).toNat % w.bytes = 0)
    (outside : ¬InWindow (ea s rs k).toNat) (ram : InRam s (ea s rs k).toNat w.bytes) :
    ∃ t, exec i s = .next t ∧ Stores s t (ea s rs k).toNat (valueBytes w (value (s.reg rv))) :=
  ⟨_, store.meaning s ▸ store_of_ram _ align outside ram, stores_writeBytes s _ _⟩

/-- The bytes of the low halfword are bytes of the word. -/
theorem valueBytes_lowHalf (v : Word) :
    valueBytes .half (v.extractLsb' 0 16) = [v.extractLsb' 8 8, v.extractLsb' 0 8] := by
  rw [valueBytes, BitVec.extractLsb'_extractLsb'_of_le (by decide), BitVec.extractLsb'_extractLsb'_of_le (by decide)]

theorem encode_stw (rd rs : RegNum) (k : Half) : encode (.stw rd rs k) = 0x35#6 ++ rs ++ rd ++ k := rfl

theorem encode_sth (rd rs : RegNum) (k : Half) : encode (.sth rd rs k) = 0x36#6 ++ rs ++ rd ++ k := rfl

theorem encode_stb (rd rs : RegNum) (k : Half) : encode (.stb rd rs k) = 0x37#6 ++ rs ++ rd ++ k := rfl

/-- Settles O38: the three codings, then each store as MemWrite of its width. -/
theorem storesWriteRam : Obligations.StoresWriteRam := by
  intro s rd rs k
  refine ⟨⟨encode_stw rd rs k, encode_sth rd rs k, encode_stb rd rs k⟩, fun outside ram align => ?stw,
    fun outside ram align => ?sth, fun outside ram => ?stb⟩
  case stw => exact exec_stores (storesBy_stw rd rs k) align outside ram
  case sth => exact valueBytes_lowHalf _ ▸ exec_stores (storesBy_sth rd rs k) align outside ram
  case stb => exact exec_stores (storesBy_stb rd rs k) (Nat.mod_one _) outside ram

/-! ### What loads and stores leave unchanged -/

theorem loadsBy_of_mem {i : Instr} {rd rs : RegNum} {k : Half}
    (h : i ∈ [.ldw rd rs k, .ldh rd rs k, .ldhu rd rs k, .ldb rd rs k, Instr.ldbu rd rs k]) :
    ∃ w widen, LoadsBy i w widen rd rs k := by
  simp only [List.mem_cons, List.not_mem_nil, or_false] at h
  rcases h with rfl | rfl | rfl | rfl | rfl
  · exact ⟨_, _, loadsBy_ldw rd rs k⟩
  · exact ⟨_, _, loadsBy_ldh rd rs k⟩
  · exact ⟨_, _, loadsBy_ldhu rd rs k⟩
  · exact ⟨_, _, loadsBy_ldb rd rs k⟩
  · exact ⟨_, _, loadsBy_ldbu rd rs k⟩

/-- Settles O39: a load has one destination, is no store, and cannot change the character. -/
theorem loadFrame : Obligations.LoadFrame := by
  intro s t rd rs k i listed executed
  obtain ⟨w, widen, load⟩ := loadsBy_of_mem listed
  obtain ⟨params, turns, epoch⟩ := exec_params_turns_epoch executed
  obtain ⟨memory, -, display⟩ := (onlyLoadsAndStoresReachMemory s t i executed).1 (load.writesNothing s)
  obtain ⟨character, -⟩ := onlyTheDataRegisterReadHasASideEffect s t i executed
  refine ⟨fun r other => ?_, memory, display, character, params, turns, epoch⟩
  by_contra changed
  have destination := onlyTheDestinationRegisterChanges s t i r executed changed
  rw [load.dest, Option.some.injEq] at destination
  exact other destination.symm

theorem cell_insertKey_other (s : State) {key line column : Nat} (v : Word) (other : line * 128 + column ≠ key) :
    State.cell { s with disp := insertKey s.disp key v } line column = s.cell line column := by
  have lookup := lookupKey_insertKey_other s.disp v other
  simp only [State.cell, Config.displayLineWords, lookup]

/-- An aligned address of the display window is four times its cell number above the base (R186). -/
theorem toNat_eq_of_cellNumber {a : Word} (align : aligned .word a = true) (display : inDisplay a = true) :
    a.toNat = 0x30100000 + cellNumber a * 4 := by
  have align : a.toNat % 4 = 0 := (aligned_iff .word a).1 align
  rw [inDisplay_iff] at display
  simp only [cellNumber, Config.displayBase]
  omega

/-- Settles O40: of the five effects a store has the two writes and the halted state. -/
theorem storeFrame : Obligations.StoreFrame := by
  intro s t i n a access executed
  cases exec_effect executed with
  | computed v pc noAccess => simp [accesses_eq_none_iff, access] at noAccess
  | read ready free rd v _ writesNothing => simp [access] at writesNothing
  | @wroteRam w _ v access' =>
    obtain ⟨rfl, rfl⟩ : n = w.bytes ∧ a = _ := by simpa [access] using access'
    refine ⟨fun _ => rfl, fun x outside => ?_, fun _ _ _ _ => rfl, rfl, rfl, rfl, rfl, rfl, rfl⟩
    exact (byteAt_writeBytes s _ x _).trans (if_neg (by rwa [valueBytes_length]))
  | wroteCell v access' align display =>
    obtain ⟨rfl, rfl⟩ : n = 4 ∧ a = _ := by simpa [access] using access'
    refine ⟨fun _ => rfl, fun _ _ => rfl, fun line column _ elsewhere => ?_, rfl, rfl, rfl, rfl, rfl, rfl⟩
    refine cell_insertKey_other s v fun same => elsewhere ?_
    rw [same]
    exact toNat_eq_of_cellNumber align display
  | raised => exact ⟨fun _ => rfl, fun _ _ => rfl, fun _ _ _ _ => rfl, rfl, rfl, rfl, rfl, rfl, rfl⟩

/-! ### Accesses that raise -/

/-- Settles O41: loads and stores check the alignment first, and every address is a multiple of 1. -/
theorem misalignedAccessesHaltTheMachine : Obligations.MisalignedAccessesHaltTheMachine := by
  refine ⟨fun s i n a access misaligned => ?_, fun s t i a h access running executed halted => ?_⟩
  · obtain reads | writes := loads_or_stores_of_accesses access
    · obtain ⟨w, widen, rd, rs, k, load, rfl, rfl⟩ := loadsBy_of_loads reads
      exact load.meaning s ▸ load_of_misaligned widen misaligned
    · obtain ⟨w, value, rv, rs, k, store, rfl, rfl⟩ := storesBy_of_stores writes
      exact store.meaning s ▸ store_of_misaligned _ misaligned
  · cases exec_effect executed with
    | raised c access' misaligned =>
      obtain rfl := Option.some.inj halted
      obtain ⟨rfl, -⟩ : 1 = _ ∧ a = _ := by simpa [access] using access'
      exact fun cause => misaligned cause (Nat.mod_one _)
    | computed | read | wroteRam | wroteCell => exact absurd (running.symm.trans halted) (by simp)

/-- Settles O42. -/
theorem unmappedLoadsHaltTheMachine : Obligations.UnmappedLoadsHaltTheMachine := by
  intro s i n a reads align outside unmapped
  obtain ⟨w, widen, rd, rs, k, load, rfl, rfl⟩ := loadsBy_of_loads reads
  exact load.meaning s ▸ load_of_unmapped widen align outside unmapped

/-- Settles O43. -/
theorem storesOutsideRamHaltTheMachine : Obligations.StoresOutsideRamHaltTheMachine := by
  intro s i n a writes align outside notRam
  obtain ⟨w, value, rv, rs, k, store, rfl, rfl⟩ := storesBy_of_stores writes
  rw [store.meaning]
  exact ⟨store_of_rom _ align outside notRam, store_of_unmapped _ align outside notRam⟩

end Sys2Proof.Machine

/-!
What is read after a store: accesses of mixed widths see the big-endian bytes of one memory (spec/20_memory.md R42,
R48), and so does a fetch (R57).
-/

namespace Sys2Proof.Machine

open Sys2Proof.Claims

/-! ### The parts of an aligned word -/

section
variable {s : State} {a : Word}

/-- An access within an aligned word outside the windows is aligned, does not wrap, and lies outside the windows:
their bounds are multiples of 4. -/
theorem part_of_word (align : a.toNat % 4 = 0) (outside : ¬InWindow a.toNat) {w : Width} {j : Nat}
    (inside : j + w.bytes ≤ 4) (part : j % w.bytes = 0) :
    (a + BitVec.ofNat 32 j).toNat = a.toNat + j ∧ aligned w (a + BitVec.ofNat 32 j) = true ∧
      inPeripheral (a + BitVec.ofNat 32 j) = false := by
  have bound := a.isLt
  have pos := width_bytes_pos w
  have noWrap : (a + BitVec.ofNat 32 j).toNat = a.toNat + j := by
    rw [BitVec.toNat_add, BitVec.toNat_ofNat]
    omega
  refine ⟨noWrap, ?_, ?_⟩
  · have base := Nat.mod_eq_zero_of_dvd ((width_bytes_dvd_four w).trans (Nat.dvd_of_mod_eq_zero align))
    rw [aligned_iff, noWrap, Nat.add_mod, base, part, Nat.zero_mod]
  · rw [← not_inWindow_iff, noWrap]
    simp only [InWindow, InDisplayWindow, InKeyboardWindow] at outside ⊢
    omega

theorem memRead_part (align : a.toNat % 4 = 0) (outside : ¬InWindow a.toNat) (ram : InRam s a.toNat 4) {w : Width}
    {j : Nat} (inside : j + w.bytes ≤ 4) (part : j % w.bytes = 0) :
    s.memRead w (a + BitVec.ofNat 32 j) = .done (s.valueAt w (a.toNat + j), s) := by
  obtain ⟨noWrap, align, outside⟩ := part_of_word align outside inside part
  have mapped : s.inRegion (a.toNat + j) w.bytes = true :=
    inRegion_part ((mapped_iff s _ _).1 (mapped_of_inRam ram)) (Nat.le_add_right _ j) (by omega)
  rw [← noWrap] at mapped ⊢
  exact memRead_of_region s align outside mapped

theorem memWrite_part (align : a.toNat % 4 = 0) (outside : ¬InWindow a.toNat) (ram : InRam s a.toNat 4) {w : Width}
    {j : Nat} (v : BitVec w.bits) (inside : j + w.bytes ≤ 4) (part : j % w.bytes = 0) :
    s.memWrite w (a + BitVec.ofNat 32 j) v =
      .done { s with mem := writeBytes s.mem (a.toNat + j) (valueBytes w v) } := by
  obtain ⟨noWrap, align, outside⟩ := part_of_word align outside inside part
  have ram : s.inRam (a.toNat + j) w.bytes = true :=
    inRam_part ((inRam_eq_true_iff s _ _).1 ram) (Nat.le_add_right _ j) (by omega)
  rw [← noWrap] at ram ⊢
  exact memWrite_of_ram s v align outside ram

end

/-! ### The bytes after a write of four -/

/-- The state with one byte written at `a`. -/
def withByte (s : State) (a : Nat) (b : Byte) : State := { s with mem := writeBytes s.mem a [b] }

/-- The state with four bytes written at `a`. -/
def withFourBytes (s : State) (a : Nat) (b0 b1 b2 b3 : Byte) : State :=
  { s with mem := writeBytes s.mem a [b0, b1, b2, b3] }

section
variable (s : State) (a : Nat) (b0 b1 b2 b3 : Byte)

theorem byteAt_withFourBytes (j : Nat) (h : j < 4) :
    (withFourBytes s a b0 b1 b2 b3).byteAt (a + j) = [b0, b1, b2, b3].getD j 0#8 := by
  rw [withFourBytes, byteAt_writeBytes, if_pos ⟨Nat.le_add_right a j, Nat.add_lt_add_left h a⟩,
    Nat.add_sub_cancel_left]

theorem wordAt_withFourBytes : wordAt (withFourBytes s a b0 b1 b2 b3) a = b0 ++ b1 ++ b2 ++ b3 := by
  have byte := byteAt_withFourBytes s a b0 b1 b2 b3
  have byte0 := byte 0 (by decide)
  rw [Nat.add_zero] at byte0
  rw [wordAt, byte0, byte 1 (by decide), byte 2 (by decide), byte 3 (by decide)]
  rfl

theorem highHalf_withFourBytes : (withFourBytes s a b0 b1 b2 b3).valueAt .half a = b0 ++ b1 := by
  have byte := byteAt_withFourBytes s a b0 b1 b2 b3
  have byte0 := byte 0 (by decide)
  rw [Nat.add_zero] at byte0
  rw [State.valueAt, byte0, byte 1 (by decide)]
  rfl

theorem lowHalf_withFourBytes : (withFourBytes s a b0 b1 b2 b3).valueAt .half (a + 2) = b2 ++ b3 := by
  have byte := byteAt_withFourBytes s a b0 b1 b2 b3
  rw [State.valueAt, byte 2 (by decide), Nat.add_assoc, byte 3 (by decide)]
  rfl

end

/-- A word, stored: its four bytes, the most significant first. -/
def withWord (s : State) (a : Nat) (v : Word) : State :=
  withFourBytes s a (v.extractLsb' 24 8) (v.extractLsb' 16 8) (v.extractLsb' 8 8) (v.extractLsb' 0 8)

theorem wordAt_withWord (s : State) (a : Nat) (v : Word) : wordAt (withWord s a v) a = v := by
  rw [withWord, wordAt_withFourBytes, append_wordBytes]

theorem highHalf_withWord (s : State) (a : Nat) (v : Word) :
    (withWord s a v).valueAt .half a = v.extractLsb' 16 16 := by
  rw [withWord, highHalf_withFourBytes]
  exact BitVec.extractLsb'_append_extractLsb'_eq_extractLsb' (by decide)

theorem lowHalf_withWord (s : State) (a : Nat) (v : Word) :
    (withWord s a v).valueAt .half (a + 2) = v.extractLsb' 0 16 := by
  rw [withWord, lowHalf_withFourBytes]
  exact BitVec.extractLsb'_append_extractLsb'_eq_extractLsb' (by decide)

/-! ### Mixed widths (R48) -/

section
variable {s : State} {a : Word} (align : a.toNat % 4 = 0) (outside : ¬InWindow a.toNat) (ram : InRam s a.toNat 4)
include align outside ram

theorem memRead_first (w : Width) : s.memRead w a = .done (s.valueAt w a.toNat, s) := by
  simpa using memRead_part align outside ram (j := 0) (by simpa using width_bytes_le_four w) (Nat.zero_mod _)

theorem memWrite_first {w : Width} (v : BitVec w.bits) :
    s.memWrite w a v = .done { s with mem := writeBytes s.mem a.toNat (valueBytes w v) } := by
  simpa using memWrite_part align outside ram (j := 0) v (by simpa using width_bytes_le_four w) (Nat.zero_mod _)

theorem memWrite_word (v : Word) : s.memWrite .word a v = .done (withWord s a.toNat v) :=
  memWrite_first align outside ram (w := .word) v

theorem narrow_reads_after_word_write (v : Word) :
    ∃ t, s.memWrite .word a v = .done t ∧ t.memRead .word a = .done (v, t) ∧
      t.memRead .byte a = .done (v.extractLsb' 24 8, t) ∧
      t.memRead .byte (a + 3#32) = .done (v.extractLsb' 0 8, t) ∧
      t.memRead .half a = .done (v.extractLsb' 16 16, t) ∧
      t.memRead .half (a + 2#32) = .done (v.extractLsb' 0 16, t) := by
  have ram' : InRam (withWord s a.toNat v) a.toNat 4 := ram
  refine ⟨_, memWrite_word align outside ram v, ?word, ?firstByte, ?lastByte, ?highHalf, ?lowHalf⟩
  case word =>
    rw [memRead_first align outside ram' .word]
    exact congrArg (fun x => Access.done (x, _)) (wordAt_withWord s a.toNat v)
  case firstByte =>
    rw [memRead_first align outside ram' .byte]
    exact congrArg (fun x => Access.done (x, _)) (byteAt_withFourBytes s a.toNat _ _ _ _ 0 (by decide))
  case lastByte =>
    rw [memRead_part align outside ram' (w := .byte) (j := 3) (by decide) rfl]
    exact congrArg (fun x => Access.done (x, _)) (byteAt_withFourBytes s a.toNat _ _ _ _ 3 (by decide))
  case highHalf => rw [memRead_first align outside ram' .half, highHalf_withWord]
  case lowHalf => rw [memRead_part align outside ram' (w := .half) (j := 2) (by decide) rfl, lowHalf_withWord]

/-- Four byte writes in a row are the one write of four bytes. -/
theorem word_read_after_byte_writes (b0 b1 b2 b3 : Byte) :
    ∃ t0 t1 t2 t3, s.memWrite .byte a b0 = .done t0 ∧ t0.memWrite .byte (a + 1#32) b1 = .done t1 ∧
      t1.memWrite .byte (a + 2#32) b2 = .done t2 ∧ t2.memWrite .byte (a + 3#32) b3 = .done t3 ∧
      t3.memRead .word a = .done (b0 ++ b1 ++ b2 ++ b3, t3) := by
  have write := fun (u : State) (ram : InRam u a.toNat 4) (j : Nat) (b : Byte) (h : j + 1 ≤ 4) =>
    (memWrite_part align outside ram (w := .byte) (j := j) b h (Nat.mod_one j) :
      u.memWrite .byte _ b = .done (withByte u (a.toNat + j) b))
  refine ⟨withByte s a.toNat b0, _, _, withFourBytes s a.toNat b0 b1 b2 b3,
    memWrite_first align outside ram (w := .byte) b0,
    write (withByte s a.toNat b0) ram 1 b1 (by decide),
    write (withByte (withByte s a.toNat b0) (a.toNat + 1) b1) ram 2 b2 (by decide),
    write (withByte (withByte (withByte s a.toNat b0) (a.toNat + 1) b1) (a.toNat + 2) b2) ram 3 b3 (by decide), ?_⟩
  have ram' : InRam (withFourBytes s a.toNat b0 b1 b2 b3) a.toNat 4 := ram
  rw [memRead_first align outside ram' .word]
  exact congrArg (fun x => Access.done (x, _)) (wordAt_withFourBytes s a.toNat b0 b1 b2 b3)

end

/-- Settles O44. -/
theorem mixedWidthAccessesAreBigEndian : Obligations.MixedWidthAccessesAreBigEndian :=
  fun _ _ v b0 b1 b2 b3 align outside ram =>
    ⟨narrow_reads_after_word_write align outside ram v, word_read_after_byte_writes align outside ram b0 b1 b2 b3⟩

/-! ### A fetch after a store (R57) -/

theorem exec_stw_of_ram {s : State} {rd rs : RegNum} {k : Half} (outside : ¬InWindow (ea s rs k).toNat)
    (ram : InRam s (ea s rs k).toNat 4) (align : (ea s rs k).toNat % 4 = 0) :
    exec (.stw rd rs k) s = .next (withWord s (ea s rs k).toNat (s.reg rd)).advance :=
  store_of_ram _ align outside ram

/-- Settles O45: the stored word is in memory, and the step from there is O6's. -/
theorem fetchSeesEarlierStores : Obligations.FetchSeesEarlierStores := by
  intro s rd rs k outside ram align
  refine ⟨_, exec_stw_of_ram outside ram align, ?_⟩
  have mapped : Mapped (withWord s (ea s rs k).toNat (s.reg rd)).advance (ea s rs k).toNat 4 := mapped_of_inRam ram
  have stored : wordAt (withWord s (ea s rs k).toNat (s.reg rd)).advance (ea s rs k).toNat = s.reg rd :=
    wordAt_withWord s _ _
  generalize (withWord s (ea s rs k).toNat (s.reg rd)).advance = t at mapped stored
  refine ⟨stored ▸ fetch_of_memory align mapped outside, fun i turn atPc decoded => ?_⟩
  rw [← atPc] at align mapped outside stored
  exact stepRunsTheDecodedInstruction t i turn align mapped outside (stored ▸ decoded)

end Sys2Proof.Machine

/-!
The two peripherals (spec/60_exceptions.md R185 to R193, spec/20_memory.md R53): what an access to each address of a
window answers, and that an instruction is refused for nothing else.
-/

namespace Sys2Proof.Machine

open Sys2Proof.Claims

theorem inDisplayWindow_iff (a : Word) : InDisplayWindow a.toNat ↔ inDisplay a = true := (inDisplay_iff a).symm

theorem inKeyboardWindow_iff (a : Word) : InKeyboardWindow a.toNat ↔ inKeyboard a = true := (inKeyboard_iff a).symm

theorem inPeripheral_of_inDisplay {a : Word} (h : inDisplay a = true) : inPeripheral a = true := by
  simp [inPeripheral, h]

theorem aligned_word {a : Word} (h : a.toNat % 4 = 0) : aligned .word a = true := (aligned_iff .word a).2 h

/-! ### The keyboard (R189 to R193) -/

theorem memRead_status (s : State) :
    s.memRead .word 0x30200000#32 = .done (s.statusWord, { s with free := s.free + 1 }) :=
  memRead_word_of_peripheral s (by decide) (by decide)

theorem memRead_data (s : State) :
    s.memRead .word 0x30200004#32 = .done (s.dataWord, { s with kbdReady := false, free := s.free + 1 }) :=
  memRead_word_of_peripheral s (by decide) (by decide)

theorem statusWord_ready (s : State) : s.statusWord.getLsbD 0 = s.kbdReady := by
  rw [State.statusWord, BitVec.getLsbD_append]
  cases s.kbdReady <;> rfl

theorem dataWord_character {s : State} (pending : s.kbdReady = true) : s.dataWord.extractLsb' 0 8 = s.kbdChar := by
  rw [State.dataWord, if_pos pending]
  exact (BitVec.extractLsb'_append_eq_of_add_le (by decide)).trans BitVec.extractLsb'_eq_self

section
variable {s : State} {rs : RegNum} {k : Half}

theorem exec_ldw_status (rd : RegNum) (h : ea s rs k = 0x30200000#32) :
    exec (.ldw rd rs k) s = .next (State.writeBack { s with free := s.free + 1 } rd s.statusWord) := by
  refine load_of_done ?_
  rw [address_eq_ea, h]
  exact memRead_status s

theorem exec_ldw_data (rd : RegNum) (h : ea s rs k = 0x30200004#32) :
    exec (.ldw rd rs k) s =
      .next (State.writeBack { s with kbdReady := false, free := s.free + 1 } rd s.dataWord) := by
  refine load_of_done ?_
  rw [address_eq_ea, h]
  exact memRead_data s

end

/-- Settles O48. -/
theorem keyboardStatusRead : Obligations.KeyboardStatusRead := fun s rd _ _ address =>
  ⟨_, s.statusWord, exec_ldw_status rd address, writesRegister_writeBack _ rd _, statusWord_ready s,
    rfl, rfl, rfl, fun _ => rfl, rfl, rfl, rfl, rfl⟩

/-- Settles O49. -/
theorem keyboardDataRead : Obligations.KeyboardDataRead := fun s rd _ _ address =>
  ⟨_, s.dataWord, exec_ldw_data rd address, writesRegister_writeBack _ rd _, dataWord_character,
    rfl, rfl, rfl, fun _ => rfl, rfl, rfl, rfl, rfl⟩

/-- Settles O20: a load into register 0 is the write-back that changes no register. -/
theorem registerZeroIsHardwired : Obligations.RegisterZeroIsHardwired :=
  ⟨reg_zero, setReg_zero, fun _ _ _ address => ⟨_, exec_ldw_data 0#5 address, rfl, fun _ => rfl, rfl⟩⟩

/-- Settles O52: the data read clears kbd_ready, which is the bit the status read loads. -/
theorem statusAfterDataReadIsNotReady : Obligations.StatusAfterDataReadIsNotReady := by
  intro s t u r q rs qs j k dataAddress dataRead statusAddress statusRead
  rw [exec_ldw_data r dataAddress, Host.Outcome.next.injEq] at dataRead
  have notReady : t.kbdReady = false := by
    rw [← dataRead]
    rfl
  rw [exec_ldw_status q statusAddress, Host.Outcome.next.injEq] at statusRead
  rw [← statusRead]
  refine ⟨notReady, ?_⟩
  rw [writesRegister_writeBack]
  split_ifs with loaded
  · rw [statusWord_ready, notReady]
  · have zero : q = 0#5 := by
      by_contra notZero
      exact loaded ⟨rfl, notZero⟩
    rw [zero, reg_zero]
    rfl

/-! ### The display (R186 to R188) -/

theorem deviceWrite_of_cell (s : State) {a : Word} (v : Word) (display : inDisplay a = true)
    (cell : isCell (cellNumber a) = true) :
    s.deviceWrite a v = .done { s with disp := insertKey s.disp (cellNumber a) v } := by
  simp [State.deviceWrite, display, cell]

theorem deviceWrite_of_notCell (s : State) {a : Word} (v : Word) (display : inDisplay a = true)
    (notCell : isCell (cellNumber a) = false) : s.deviceWrite a v = .refused .displayAccess := by
  simp [State.deviceWrite, display, notCell]

theorem deviceRead_of_display (s : State) {a : Word} (display : inDisplay a = true) :
    s.deviceRead a = .refused .displayAccess := by
  simp [State.deviceRead, display]

/-- The word written to the cell at line and column is the word there. -/
theorem cell_insertKey_same (s : State) (line column : Nat) (v : Word) :
    State.cell { s with disp := insertKey s.disp (line * 128 + column) v } line column = v := by
  have lookup := lookupKey_insertKey_same s.disp (line * 128 + column) v
  simp only [State.cell, Config.displayLineWords, lookup, Option.getD_some]

theorem exec_stw_of_cell {s : State} (rd : RegNum) {rs : RegNum} {k : Half} {line column : Nat} (hl : line < 30)
    (hc : column < 80) (address : (ea s rs k).toNat = 0x30100000 + (line * 128 + column) * 4) :
    exec (.stw rd rs k) s =
      .next (State.advance { s with disp := insertKey s.disp (line * 128 + column) (s.reg rd) }) := by
  have align : (ea s rs k).toNat % 4 = 0 := by omega
  have display : inDisplay (ea s rs k) = true := by
    rw [inDisplay_iff]
    omega
  have number : cellNumber (ea s rs k) = line * 128 + column := cellNumber_of_address address
  have cell : isCell (cellNumber (ea s rs k)) = true := by
    rw [number, isCell_iff]
    omega
  refine store_of_done ?_
  rw [address_eq_ea, memWrite_word_of_peripheral s _ (aligned_word align) (inPeripheral_of_inDisplay display),
    deviceWrite_of_cell s _ display cell, number]

/-- Settles O46: two cells of the display have two numbers. -/
theorem storingAWordShowsACharacter : Obligations.StoringAWordShowsACharacter := by
  intro s rd rs k line column hl hc address
  have same := cell_insertKey_same s line column (s.reg rd)
  refine ⟨_, exec_stw_of_cell rd hl hc address, same, congrArg (BitVec.extractLsb' 0 8) same,
    fun l c _ hc' other => ?_, fun _ => rfl, fun _ => rfl, rfl, rfl, rfl, rfl⟩
  exact cell_insertKey_other s _ (by omega)

/-- Settles O47. -/
theorem otherDisplayAccessesAreRefused : Obligations.OtherDisplayAccessesAreRefused := by
  intro s rd rs k align
  refine ⟨fun window => ⟨?load, fun column => ?store⟩, fun past before unmapped => ?_⟩
  case load =>
    have display := (inDisplayWindow_iff _).1 window
    refine load_of_refused ?_
    rw [address_eq_ea, memRead_word_of_peripheral s (aligned_word align) (inPeripheral_of_inDisplay display)]
    exact deviceRead_of_display s display
  case store =>
    have display := (inDisplayWindow_iff _).1 window
    have notCell : isCell (cellNumber (ea s rs k)) = false := by
      rw [← Bool.not_eq_true, isCell_iff]
      simp only [cellNumber, Config.displayBase]
      omega
    refine store_of_refused ?_
    rw [address_eq_ea, memWrite_word_of_peripheral s _ (aligned_word align) (inPeripheral_of_inDisplay display)]
    exact deviceWrite_of_notCell s _ display notCell
  · refine load_of_unmapped _ align ?_ unmapped
    simp only [InWindow, InDisplayWindow, InKeyboardWindow]
    omega

/-! ### What is refused (R53, R177) -/

theorem memWrite_of_keyboard (s : State) {a : Word} (v : Word) (align : aligned .word a = true)
    (keyboard : inKeyboard a = true) (notDisplay : inDisplay a = false) :
    s.memWrite .word a v = .refused .keyboardAccess := by
  have window : inPeripheral a = true := by simp [inPeripheral, keyboard]
  rw [memWrite_word_of_peripheral s v align window]
  simp [State.deviceWrite, notDisplay]

/-- Settles O50. -/
theorem keyboardWritesAreRefused : Obligations.KeyboardWritesAreRefused := by
  intro s rd rs k
  refine ⟨fun register => store_of_refused ?_, fun address unmapped => ?_⟩
  · rw [address_eq_ea]
    rcases register with address | address
    · rw [address]
      exact memWrite_of_keyboard s _ (by decide) (by decide) (by decide)
    · rw [address]
      exact memWrite_of_keyboard s _ (by decide) (by decide) (by decide)
  · rw [← address]
    refine load_of_unmapped _ ?_ ?_ ?_ <;> rw [address]
    · rfl
    · exact (not_inWindow_iff _).2 (by decide)
    · exact unmapped

theorem width_ne_word {w : Width} (h : w.bytes ≠ 4) : w ≠ .word := by
  rintro rfl
  exact h rfl

/-- Settles O51. -/
theorem subWordPeripheralAccessesAreRefused : Obligations.SubWordPeripheralAccessesAreRefused := by
  intro s i n a access notWord align window
  have window := (inWindow_iff a).1 window
  obtain reads | writes := loads_or_stores_of_accesses access
  · obtain ⟨w, widen, rd, rs, k, load, rfl, rfl⟩ := loadsBy_of_loads reads
    rw [load.meaning]
    exact load_of_refused
      (memRead_subword_of_peripheral s (width_ne_word notWord) ((aligned_iff w _).2 align) window)
  · obtain ⟨w, value, rv, rs, k, store, rfl, rfl⟩ := storesBy_of_stores writes
    rw [store.meaning]
    exact store_of_refused
      (memWrite_subword_of_peripheral s _ (width_ne_word notWord) ((aligned_iff w _).2 align) window)

/-- Why an access of `n` bytes at `a` is refused: for its width, or as a word in the display or the keyboard. -/
def RefusedFor (n : Nat) (a : Word) (r : Refusal) : Prop :=
  InWindow a.toNat ∧ a.toNat % n = 0 ∧
    ((n ≠ 4 ∧ r = .subWordPeripheralAccess) ∨ (n = 4 ∧ InDisplayWindow a.toNat ∧ r = .displayAccess) ∨
      (n = 4 ∧ InKeyboardWindow a.toNat ∧ r = .keyboardAccess))

theorem inKeyboard_of_not_inDisplay {a : Word} (window : inPeripheral a = true) (notDisplay : ¬inDisplay a = true) :
    inKeyboard a = true := by
  simpa [inPeripheral, notDisplay] using window

theorem deviceRead_refused {s : State} {a : Word} {r : Refusal} (window : inPeripheral a = true)
    (h : s.deviceRead a = .refused r) :
    (inDisplay a = true ∧ r = .displayAccess) ∨ (inKeyboard a = true ∧ r = .keyboardAccess) := by
  unfold State.deviceRead at h
  split_ifs at h with display
  · exact .inl ⟨display, (Access.refused.inj h).symm⟩
  · exact .inr ⟨inKeyboard_of_not_inDisplay window display, (Access.refused.inj h).symm⟩

theorem deviceWrite_refused {s : State} {a v : Word} {r : Refusal} (window : inPeripheral a = true)
    (h : s.deviceWrite a v = .refused r) :
    (inDisplay a = true ∧ r = .displayAccess) ∨ (inKeyboard a = true ∧ r = .keyboardAccess) := by
  unfold State.deviceWrite at h
  split_ifs at h with display
  · exact .inl ⟨display, (Access.refused.inj h).symm⟩
  · exact .inr ⟨inKeyboard_of_not_inDisplay window display, (Access.refused.inj h).symm⟩

theorem refusedFor_word {a : Word} {r : Refusal} (align : aligned .word a = true) (window : inPeripheral a = true)
    (why : (inDisplay a = true ∧ r = .displayAccess) ∨ (inKeyboard a = true ∧ r = .keyboardAccess)) :
    RefusedFor 4 a r := by
  refine ⟨(inWindow_iff a).2 window, (aligned_iff .word a).1 align, .inr ?_⟩
  rw [inDisplayWindow_iff, inKeyboardWindow_iff]
  exact why.imp (⟨rfl, ·⟩) (⟨rfl, ·⟩)

theorem refusedFor_subWord {w : Width} {a : Word} {r : Refusal} (align : aligned w a = true)
    (window : inPeripheral a = true) (notWord : w.bytes ≠ 4) (h : r = .subWordPeripheralAccess) :
    RefusedFor w.bytes a r :=
  ⟨(inWindow_iff a).2 window, (aligned_iff w a).1 align, .inl ⟨notWord, h⟩⟩

theorem memRead_refused {s : State} {w : Width} {a : Word} {r : Refusal} (h : s.memRead w a = .refused r) :
    RefusedFor w.bytes a r := by
  unfold State.memRead at h
  split_ifs at h with align window
  cases w with
  | word => exact refusedFor_word align window (deviceRead_refused window h)
  | half | byte => exact refusedFor_subWord align window (by decide) (Access.refused.inj h).symm

theorem memWrite_refused {s : State} {w : Width} {a : Word} {v : BitVec w.bits} {r : Refusal}
    (h : s.memWrite w a v = .refused r) : RefusedFor w.bytes a r := by
  unfold State.memWrite at h
  split_ifs at h with align window
  cases w with
  | word => exact refusedFor_word align window (deviceWrite_refused window h)
  | half | byte => exact refusedFor_subWord align window (by decide) (Access.refused.inj h).symm

theorem load_refused {s : State} {w : Width} {widen : BitVec w.bits → Word} {rd rs : RegNum} {k : Half} {r : Refusal}
    (h : s.load w widen rd rs k = .refused r) : s.memRead w (ea s rs k) = .refused r := by
  rw [← address_eq_ea]
  unfold State.load at h
  split at h
  · cases h
  · cases h
  · rename_i refused
    exact refused.trans (congrArg _ (Host.Outcome.refused.inj h))

theorem store_refused {s : State} {w : Width} {v : BitVec w.bits} {rs : RegNum} {k : Half} {r : Refusal}
    (h : s.store w v rs k = .refused r) : s.memWrite w (ea s rs k) v = .refused r := by
  rw [← address_eq_ea]
  unfold State.store at h
  split at h
  · cases h
  · cases h
  · rename_i refused
    exact refused.trans (congrArg _ (Host.Outcome.refused.inj h))

theorem load_ne_fault (s : State) (w : Width) (widen : BitVec w.bits → Word) (rd rs : RegNum) (k : Half) (f : Fault) :
    s.load w widen rd rs k ≠ .fault f := by
  unfold State.load
  split <;> simp

theorem store_ne_fault (s : State) (w : Width) (v : BitVec w.bits) (rs : RegNum) (k : Half) (f : Fault) :
    s.store w v rs k ≠ .fault f := by
  unfold State.store
  split <;> simp

/-- Settles O25: a computing instruction always goes on, a load or store is refused when its primitive is. -/
theorem onlyWindowAccessesAreRefused : Obligations.OnlyWindowAccessesAreRefused := by
  intro s i
  cases shape i with
  | computing _ compute => simp [compute.meaning]
  | loading load =>
    rw [load.meaning]
    exact ⟨load_ne_fault s _ _ _ _ _, fun r refused =>
      ⟨_, _, accesses_of_loads (load.reads s), memRead_refused (load_refused refused)⟩⟩
  | storing store =>
    rw [store.meaning]
    exact ⟨store_ne_fault s _ _ _ _, fun r refused =>
      ⟨_, _, accesses_of_stores (store.readsNothing s) (store.writes s), memWrite_refused (store_refused refused)⟩⟩

end Sys2Proof.Machine
